-- ==== Sys2Proof/Word.lean ====
section
/-! DEFINITION. The byte, the one data width of the LS8 core. -/

namespace Sys2Proof

/-- Every register, memory cell, address and flag value of the core is an unsigned byte (spec 00_scope.md R6, R10). -/
abbrev Byte := BitVec 8

end Sys2Proof
end

