-- ==== Sys2Proof/Syntax.lean ====
section
/-! DEFINITION. The 17 instructions of the core (spec 00_scope.md R3, 30_encoding.md R73, R77). -/

namespace Sys2Proof

/-- The names of the 17 instructions (spec 00_scope.md R3). -/
inductive Mnemonic where
  | hlt | ldi | prn | push | pop | call | ret | jmp | jeq | jne | jgt | jlt | jle | jge | add | mul | cmp
  deriving DecidableEq, Repr

/-- The four instruction formats (spec 30_encoding.md R73). -/
inductive Format where
  /-- Opcode only. -/
  | f0
  /-- Opcode, `reg`. -/
  | f1r
  /-- Opcode, `reg`, `imm`. -/
  | f2ri
  /-- Opcode, `regA`, `regB`. -/
  | f2rr
  deriving DecidableEq, Repr

/-- One constructor per row of the opcode table. A register operand is the WHOLE operand byte: a value of 8 to 255 is
no decoding error, it faults when the instruction executes (spec 30_encoding.md R74, R79). -/
inductive Instr where
  /-- HLT: halt (R110). -/
  | hlt
  /-- LDI reg, imm: load immediate (R100). -/
  | ldi (reg imm : Byte)
  /-- PRN reg: print register (R105). -/
  | prn (reg : Byte)
  /-- PUSH reg (R120). -/
  | push (reg : Byte)
  /-- POP reg (R125). -/
  | pop (reg : Byte)
  /-- CALL reg: call subroutine (R142). -/
  | call (reg : Byte)
  /-- RET: return from subroutine (R145). -/
  | ret
  /-- JMP reg (R148). -/
  | jmp (reg : Byte)
  /-- JEQ reg: jump if E (R150). -/
  | jeq (reg : Byte)
  /-- JNE reg: jump if not E (R152). -/
  | jne (reg : Byte)
  /-- JGT reg: jump if G (R154). -/
  | jgt (reg : Byte)
  /-- JLT reg: jump if L (R156). -/
  | jlt (reg : Byte)
  /-- JLE reg: jump if L or E (R160). -/
  | jle (reg : Byte)
  /-- JGE reg: jump if G or E (R158). -/
  | jge (reg : Byte)
  /-- ADD regA, regB (R174). -/
  | add (regA regB : Byte)
  /-- MUL regA, regB (R172). -/
  | mul (regA regB : Byte)
  /-- CMP regA, regB: compare (R175). -/
  | cmp (regA regB : Byte)
  deriving DecidableEq, Repr

/-- The name of an instruction. -/
def Instr.mnemonic : Instr → Mnemonic
  | .hlt => .hlt
  | .ldi _ _ => .ldi
  | .prn _ => .prn
  | .push _ => .push
  | .pop _ => .pop
  | .call _ => .call
  | .ret => .ret
  | .jmp _ => .jmp
  | .jeq _ => .jeq
  | .jne _ => .jne
  | .jgt _ => .jgt
  | .jlt _ => .jlt
  | .jle _ => .jle
  | .jge _ => .jge
  | .add _ _ => .add
  | .mul _ _ => .mul
  | .cmp _ _ => .cmp

/-- The operand bytes that are register indices, in encoding order (spec 30_encoding.md R73). LDI's immediate is not
one of them. -/
def Instr.regOperands : Instr → List Byte
  | .hlt => []
  | .ldi reg _ => [reg]
  | .prn reg => [reg]
  | .push reg => [reg]
  | .pop reg => [reg]
  | .call reg => [reg]
  | .ret => []
  | .jmp reg => [reg]
  | .jeq reg => [reg]
  | .jne reg => [reg]
  | .jgt reg => [reg]
  | .jlt reg => [reg]
  | .jle reg => [reg]
  | .jge reg => [reg]
  | .add regA regB => [regA, regB]
  | .mul regA regB => [regA, regB]
  | .cmp regA regB => [regA, regB]

end Sys2Proof
end

