-- ==== Sys2Proof/WellFormed.lean ====
section
/-! DEFINITION. Well-formed instructions: every register operand names one of R0 to R7 (spec 30_encoding.md R74). An
ill-formed one still has an encoding and still decodes; executing it raises IllegalRegister (60_exceptions.md R206). -/

namespace Sys2Proof

/-- A register operand byte names a register exactly when its value is 0 to 7 (spec 30_encoding.md R74). -/
def regOperandOk (o : Byte) : Bool := o.toNat < 8

/-- Every register operand of the instruction is 0 to 7. -/
def Instr.wellFormed (i : Instr) : Bool := i.regOperands.all regOperandOk

end Sys2Proof
end

