-- ==== Sys2Proof/Decode.lean ====
section
/-! DEFINITION. The opcode table, the fields of the opcode byte, the decoder and the encoder (spec 30_encoding.md). -/

namespace Sys2Proof

/-- The opcode byte of each instruction, the ONE configuration table of spec 00_scope.md R7, with the values of
30_encoding.md R77. UNVERIFIED (log entry 3): the spec states every value and marks it "from general knowledge, not in
source". -/
def Config.opcodeValue : Mnemonic → Byte
  | .hlt => 0x01
  | .ldi => 0x82
  | .prn => 0x47
  | .push => 0x45
  | .pop => 0x46
  | .call => 0x50
  | .ret => 0x11
  | .jmp => 0x54
  | .jeq => 0x55
  | .jne => 0x56
  | .jgt => 0x57
  | .jlt => 0x58
  | .jle => 0x59
  | .jge => 0x5A
  | .add => 0xA0
  | .mul => 0xA2
  | .cmp => 0xA7

/-- All 17 names, in the table's order. -/
def Mnemonic.all : List Mnemonic :=
  [.hlt, .ldi, .prn, .push, .pop, .call, .ret, .jmp, .jeq, .jne, .jgt, .jlt, .jle, .jge, .add, .mul, .cmp]

/-- The format of each instruction (R73). -/
def Mnemonic.format : Mnemonic → Format
  | .hlt => .f0
  | .ldi => .f2ri
  | .prn => .f1r
  | .push => .f1r
  | .pop => .f1r
  | .call => .f1r
  | .ret => .f0
  | .jmp => .f1r
  | .jeq => .f1r
  | .jne => .f1r
  | .jgt => .f1r
  | .jlt => .f1r
  | .jle => .f1r
  | .jge => .f1r
  | .add => .f2rr
  | .mul => .f2rr
  | .cmp => .f2rr

/-- The length of each format in bytes (R73). -/
def Format.length : Format → Nat
  | .f0 => 1
  | .f1r => 2
  | .f2ri => 3
  | .f2rr => 3

/-! ### The fields of the opcode byte (R71) -/

/-- Bits 7..6: the number of operand bytes that follow. -/
def operandCount (op : Byte) : Nat := (op >>> 6).toNat

/-- Bit 5: an ALU operation; informational only. -/
def isAlu (op : Byte) : Bool := op.getLsbD 5

/-- Bit 4: the instruction sets its own program counter. -/
def setsPc (op : Byte) : Bool := op.getLsbD 4

/-- Bits 3..0: the operation identifier; not used for dispatch (R78). -/
def opId (op : Byte) : Nat := (op &&& 0x0F).toNat

/-- R70: the length of an instruction in bytes, from its opcode byte alone. -/
def instrLength (op : Byte) : Nat := operandCount op + 1

/-! ### Decoding -/

/-- Why bytes are no instruction. -/
inductive DecodeError where
  /-- The opcode byte is not one of the 17 (R79). -/
  | unknownOpcode (op : Byte)
  /-- A finite byte string ends inside the instruction. A fetch never meets this: the step reads all three bytes (R75). -/
  | truncated
  deriving DecidableEq, Repr

/-- R78: dispatch compares the whole opcode byte with the 17 values of the table. -/
def Config.mnemonicOf? (op : Byte) : Option Mnemonic :=
  Mnemonic.all.find? fun m => Config.opcodeValue m == op

/-- The instruction of a name and the two operand bytes the step reads; an operand byte the format does not use is
ignored (R73, R75). -/
def Mnemonic.withOperands (o1 o2 : Byte) : Mnemonic → Instr
  | .hlt => .hlt
  | .ldi => .ldi o1 o2
  | .prn => .prn o1
  | .push => .push o1
  | .pop => .pop o1
  | .call => .call o1
  | .ret => .ret
  | .jmp => .jmp o1
  | .jeq => .jeq o1
  | .jne => .jne o1
  | .jgt => .jgt o1
  | .jlt => .jlt o1
  | .jle => .jle o1
  | .jge => .jge o1
  | .add => .add o1 o2
  | .mul => .mul o1 o2
  | .cmp => .cmp o1 o2

/-- Decode the three bytes every step reads (R75, R78, R80). Total: a byte that is not an opcode is rejected by name. -/
def decode (op o1 o2 : Byte) : Except DecodeError Instr :=
  match Config.mnemonicOf? op with
  | some m => .ok (m.withOperands o1 o2)
  | none => .error (.unknownOpcode op)

/-- Decode the first instruction of a byte string and return the rest of the string. The length is taken from the
opcode byte alone (R70). -/
def decodeBytes : List Byte → Except DecodeError (Instr × List Byte)
  | [] => .error .truncated
  | op :: rest =>
    match decode op (rest.getD 0 0) (rest.getD 1 0) with
    | .error e => .error e
    | .ok i => if rest.length < operandCount op then .error .truncated else .ok (i, rest.drop (operandCount op))

/-! ### Encoding -/

/-- The operand bytes of an instruction in encoding order (R73, R84). -/
def Instr.operands : Instr → List Byte
  | .hlt => []
  | .ldi reg imm => [reg, imm]
  | .prn reg => [reg]
  | .push reg => [reg]
  | .pop reg => [reg]
  | .call reg => [reg]
  | .ret => []
  | .jmp reg => [reg]
  | .jeq reg => [reg]
  | .jne reg => [reg]
  | .jgt reg => [reg]
  | .jlt reg => [reg]
  | .jle reg => [reg]
  | .jge reg => [reg]
  | .add regA regB => [regA, regB]
  | .mul regA regB => [regA, regB]
  | .cmp regA regB => [regA, regB]

/-- The opcode byte followed by the operand bytes (R70, R73, R77). -/
def encode (i : Instr) : List Byte := Config.opcodeValue i.mnemonic :: i.operands

/-- The bytes of a program: its instructions one after the other (R84, R86). -/
def encodeProgram (is : List Instr) : List Byte := is.flatMap encode

/-! ### The opcode table's numbering of an instruction's bits -/

/-- Byte `k` of an instruction whose bits are `w`, bit 0 being the least significant bit of the opcode byte; bits from
`nbits` on are 0. -/
def tableByte (nbits w k : Nat) : Byte := BitVec.ofNat 8 (w % 2 ^ nbits / 2 ^ (8 * k))

/-- The instruction the decoder reads from an instruction whose bits are `w`, numbered as the opcode table numbers them. -/
def decodeTableWord (nbits w : Nat) : Option Instr :=
  (decode (tableByte nbits w 0) (tableByte nbits w 1) (tableByte nbits w 2)).toOption

end Sys2Proof
end

