-- ==== Sys2Proof/Config.lean ====
section
/-! DEFINITION. The two implementation parameters of the core (spec 00_scope.md R8). The third configuration item, the
opcode value table of R7, is `Config.opcodeValue` in Sys2Proof/Decode.lean; the default parameter values are in
Sys2Proof/Machine/Params.lean. -/

namespace Sys2Proof

/-- `unknown_opcode_policy`: what a fetched byte that is not one of the 17 opcodes does (spec 00_scope.md R8,
30_encoding.md R82). -/
inductive UnknownOpcodePolicy where
  | strict
  | permissive
  deriving DecidableEq, Repr

/-- `cmp_flags_policy`: whether CMP clears the flags byte before it sets its bit (spec 00_scope.md R8, 43_alu.md R176). -/
inductive CmpFlagsPolicy where
  | clearThenSet
  | orIn
  deriving DecidableEq, Repr

/-- The parameters of one machine. No instruction and no port changes them. -/
structure Config where
  unknownOpcode : UnknownOpcodePolicy
  cmpFlags      : CmpFlagsPolicy
  deriving DecidableEq, Repr

end Sys2Proof
end

