-- ==== Sys2Proof/Machine/Params.lean ====
section
/-! DEFINITION. The default values of the two parameters, and the reset values of memory, stack pointer, program counter
and flags byte that are not zero by shape (spec 00_scope.md R8, 70_reset_and_hazards.md R230). -/

namespace Sys2Proof

/-- The defaults of spec 00_scope.md R8: Strict and ClearThenSet (log entries 1, 5, 17). -/
def Config.standard : Config := { unknownOpcode := .strict, cmpFlags := .clearThenSet }

namespace Machine

/-- What a byte of memory that nothing has written holds: reset zeroes all of memory (R230). -/
def unlistedByte : Byte := 0x00

/-- The reset value of a general register: 0xF4 for the stack pointer R7, zero for the others (R230). -/
def regResetValue (r : Fin 8) : Byte := if r = 7 then 0xF4 else 0x00

/-- The reset vector: the address of the first instruction (R59, R230). -/
def resetVector : Byte := 0x00

/-- The reset value of the flags byte (R36, R230). -/
def flResetValue : Byte := 0x00

end Machine
end Sys2Proof
end

