-- ==== Sys2Proof/Machine/State.lean ====
section
/-! DEFINITION. The state of the core as plain data (spec 10_state.md R20), the reasons a step can stop, and the state
after reset (spec 70_reset_and_hazards.md R230). -/

namespace Sys2Proof.Machine

/-- The fault causes of spec 60_exceptions.md R201. -/
inductive Cause where
  /-- Code 1: the fetched byte is not one of the 17 opcodes, under the Strict policy. -/
  | illegalOpcode
  /-- Code 2: a register-index operand byte is 8 to 255. -/
  | illegalRegister
  deriving DecidableEq, Repr

/-- The codes the spec assigns to the causes (R201). -/
def Cause.code : Cause → Nat
  | .illegalOpcode => 1
  | .illegalRegister => 2

/-- The fault record of spec 10_state.md R31: the cause, the address of the faulting instruction's opcode byte, and the
three bytes the step read. -/
structure FaultRecord where
  cause : Cause
  addr  : Byte
  op    : Byte
  o1    : Byte
  o2    : Byte
  deriving DecidableEq, Repr

/-- The run state of spec 10_state.md R30. Halted is entered only by HLT, Faulted only by a fault; both are terminal. -/
inductive RunState where
  | running
  | halted
  | faulted (record : FaultRecord)
  deriving DecidableEq, Repr

/-- Memory as (address, byte) pairs in one canonical form, `Memory.wf` in Machine/Ops.lean: addresses strictly rising,
each below 256, and no entry equal to what an unlisted address reads as. -/
abbrev Memory := List Host.Cell

/-- The core's state (spec 10_state.md R20), one field per element, and the machine's parameters (R8; log entry 1). -/
structure State where
  /-- The 256 bytes of code and data (R51). -/
  mem  : Memory
  /-- R0 to R7; R7 is the stack pointer (R21, R23). -/
  regs : Vector Byte 8
  /-- The address of the next instruction to fetch; during a step, the instruction's own address (R28). -/
  pc   : Byte
  /-- The flags byte: bit 2 G, bit 1 L, bit 0 E (R32). -/
  fl   : Byte
  /-- Running, Halted or Faulted (R30). -/
  run  : RunState
  /-- The bytes PRN has emitted, oldest first (R40). -/
  out  : List Byte
  /-- The two parameters of R8. Nothing writes them. -/
  cfg  : Config
  deriving DecidableEq, Repr

/-- Why the machine takes no step. A fault of the SPEC (R201) is not among these: it is a next state whose run state is
Faulted (R203). -/
inductive Fault where
  /-- Raised by `step` when the run state is Halted: "the core takes no step" (R80). Safe: the model stops where the
  core stops. -/
  | halted
  /-- Raised by `step` when the run state is Faulted, with the record the core holds (R80, R203). Safe: the model stops
  where the core stops. -/
  | faulted (record : FaultRecord)
  deriving DecidableEq, Repr

/-- Why the model gives no meaning. -/
inductive Refusal where
  /-- An instruction of the opcode table that has no meaning yet; raised by `exec` only. No arm answers it. Safe. -/
  | notModelled (mnemonic : String)
  /-- Raised by the load port when the image is longer than 256 bytes: "the load is refused" (R236, D10). Safe. -/
  | imageTooLong
  /-- Raised by the load port when the state is not the one reset left or a step has run since (R236, D10). Safe. -/
  | coreNotFresh
  deriving DecidableEq, Repr

/-- What a step, and an instruction, answers. -/
abbrev Result := Host.Outcome State Fault Refusal

/-- The state right after the first reset: memory all zero, R0 to R6 zero, R7 = 0xF4, pc = 0, FL = 0, Running (R230).
`out` is empty because nothing has been printed yet, and the parameters have their defaults (log entries 1 and 8:
DESIGN CHOICE). -/
def State.reset : State where
  mem  := []
  regs := Vector.ofFn regResetValue
  pc   := resetVector
  fl   := flResetValue
  run  := .running
  out  := []
  cfg  := Config.standard

end Sys2Proof.Machine
end

