-- ==== Sys2Proof/Machine/Ops.lean ====
section
/-! DEFINITION. The shared operations over memory, registers, the program counter, the output stream and the run state:
the primitives of spec 00_scope.md R11, the generic advance and fault entry. -/

namespace Sys2Proof.Machine

/-! ### Memory (20_memory.md) -/

/-- The canonical form: addresses strictly rising and below 256, no entry equal to what an unlisted address reads as. -/
abbrev Memory.wf (m : Memory) : Prop :=
  m.Pairwise (fun c d => c.1 < d.1) ∧ ∀ c ∈ m, c.1 < 256 ∧ c.2 ≠ unlistedByte

/-- The byte at key `a`; an unlisted address holds its reset contents (R230). -/
def Memory.get : Memory → Nat → Byte
  | [], _ => unlistedByte
  | (k, v) :: m, a => if k = a then v else Memory.get m a

/-- Put `v` at key `a`, keeping the keys in rising order. -/
def Memory.insert : Memory → Nat → Byte → Memory
  | [], a, v => [(a, v)]
  | (k, w) :: m, a, v =>
    if a < k then (a, v) :: (k, w) :: m
    else if k = a then (a, v) :: m
    else (k, w) :: Memory.insert m a v

/-- Take key `a` off the list. -/
def Memory.remove : Memory → Nat → Memory
  | [], _ => []
  | (k, w) :: m, a => if k = a then Memory.remove m a else (k, w) :: Memory.remove m a

/-- Store `v` at `a`: a byte equal to what an unlisted address reads as is not listed. -/
def Memory.put (m : Memory) (a : Nat) (v : Byte) : Memory :=
  if v = unlistedByte then m.remove a else m.insert a v

/-- R52 `MemRead(addr, 1)`: every byte value is a valid address, and the read cannot fail (R51). -/
def State.readMem (s : State) (a : Byte) : Byte := s.mem.get a.toNat

/-- R52 `MemWrite(addr, 1, v)`: cannot fail. -/
def State.writeMem (s : State) (a v : Byte) : State := { s with mem := s.mem.put a.toNat v }

/-- The bytes `vs` stored at `a`, `a + 1`, ..., addresses mod 256 (R53). -/
def State.writeBytes (s : State) (a : Byte) : List Byte → State
  | [] => s
  | v :: vs => (s.writeMem a v).writeBytes (a + 1) vs

/-! ### Registers (10_state.md) -/

/-- R11 `R[i]`. No register is hardwired (R22). -/
def State.readReg (s : State) (r : Fin 8) : Byte := s.regs.get r

/-- R11 `R[i] <- v`. -/
def State.writeReg (s : State) (r : Fin 8) (v : Byte) : State := { s with regs := s.regs.set r v }

/-- R11: `SP` is another name for `R[7]`. -/
def State.sp (s : State) : Byte := s.readReg 7

/-- `pc <- t`; every byte is a valid target (R11, R140). -/
def State.setPc (s : State) (t : Byte) : State := { s with pc := t }

/-- `FL <- v`; CMP alone does this (R33). -/
def State.setFl (s : State) (v : Byte) : State := { s with fl := v }

/-! ### The stack (R24): SP addresses the most recently pushed byte, and grows downward -/

/-- `R[7] <- R[7] - 1 mod 256`. -/
def State.decSp (s : State) : State := s.writeReg 7 (s.sp - 1)

/-- `R[7] <- R[7] + 1 mod 256`. -/
def State.incSp (s : State) : State := s.writeReg 7 (s.sp + 1)

/-- The address a push from this state stores to: SP - 1 mod 256 (R54). -/
def State.pushAddr (s : State) : Byte := s.decSp.sp

/-- `MemWrite(R[7], 1, v)`, with R[7] as it stands. -/
def State.storeTop (s : State) (v : Byte) : State := s.writeMem s.sp v

/-- `MemRead(R[7], 1)`. -/
def State.loadTop (s : State) : Byte := s.readMem s.sp

/-! ### Fetch (30_encoding.md R80 steps 1 and 3) -/

/-- The opcode byte the step reads. -/
def State.fetchOp (s : State) : Byte := s.readMem s.pc

/-- The first speculative operand byte, at pc + 1 mod 256 (R53, R75). -/
def State.fetchO1 (s : State) : Byte := s.readMem (s.pc + 1)

/-- The second speculative operand byte, at pc + 2 mod 256 (R53, R75). -/
def State.fetchO2 (s : State) : Byte := s.readMem (s.pc + 2)

/-! ### Output, halt, fault, advance -/

/-- R11 `Output(v)`: append `v` to the output stream (R40). -/
def State.output (s : State) (v : Byte) : State := { s with out := s.out ++ [v] }

/-- `run <- Halted` (R11, R110). -/
def State.halt (s : State) : State := { s with run := .halted }

/-- R203, fault entry, the one way into Faulted: no state but `run` changes, so pc still holds the faulting
instruction's address, and the record holds the cause, that address and the three bytes the step read (R31). A meaning
raises a fault before any of its writes, so the bytes at pc are the ones the step read (log entry 11). There is no
handler and no return from a fault: only reset leaves Faulted (R200, R212, R232). -/
def State.raiseFault (s : State) (c : Cause) : State :=
  { s with run := .faulted { cause := c, addr := s.pc, op := s.fetchOp, o1 := s.fetchO1, o2 := s.fetchO2 } }

/-- The fall-through address of an instruction with opcode byte `op` at `a`: a + operand_count + 1 mod 256 (R12, R81). -/
def nextAddr (op a : Byte) : Byte := a + BitVec.ofNat 8 (instrLength op)

/-- R80 step 5 and R81: the generic advance, read off the opcode byte whatever the byte is (R78). With sets_pc = 1 the
pc is left as the instruction put it. -/
def State.genericAdvance (s : State) (op : Byte) : State :=
  if setsPc op then s else s.setPc (nextAddr op s.pc)

/-- R80: what a step of a halted core answers: no step is taken (log entry 2). -/
def stepWhenHalted : Result := .fault .halted

/-- R80, R203: what a step of a faulted core answers: no step is taken (log entry 2). -/
def stepWhenFaulted (record : FaultRecord) : Result := .fault (.faulted record)

end Sys2Proof.Machine
end

