-- ==== Sys2Proof/Machine/Flags.lean ====
section
/-! DEFINITION. The flags byte: its bits, what CMP writes, and the six conditions (spec 10_state.md R32 to R36,
42_control.md R150 to R160, 43_alu.md R175, R176). -/

namespace Sys2Proof.Machine

/-- FL.G, bit 2: greater (R32; the source's layout, 90_conflicts.md C8). -/
def flG (fl : Byte) : Bool := fl.getLsbD 2

/-- FL.L, bit 1: less (R32). -/
def flL (fl : Byte) : Bool := fl.getLsbD 1

/-- FL.E, bit 0: equal (R32). -/
def flE (fl : Byte) : Bool := fl.getLsbD 0

/-- The one bit of a comparison of unsigned bytes (R175). -/
def cmpBit (x y : Byte) : Byte :=
  if x.toNat > y.toNat then 0b100 else if x.toNat < y.toNat then 0b010 else 0b001

/-- What CMP makes of the flags byte under each policy (R176). -/
def cmpFlags (policy : CmpFlagsPolicy) (old bit : Byte) : Byte :=
  match policy with
  | .clearThenSet => bit
  | .orIn => old ||| bit

/-- The condition of JEQ: E set (R150). -/
def condEq (fl : Byte) : Bool := flE fl

/-- The condition of JNE: E clear (R152). -/
def condNe (fl : Byte) : Bool := !flE fl

/-- The condition of JGT: G set (R154). -/
def condGt (fl : Byte) : Bool := flG fl

/-- The condition of JLT: L set (R156). -/
def condLt (fl : Byte) : Bool := flL fl

/-- The condition of JGE: G or E set (R158). -/
def condGe (fl : Byte) : Bool := flG fl || flE fl

/-- The condition of JLE: L or E set (R160). -/
def condLe (fl : Byte) : Bool := flL fl || flE fl

end Sys2Proof.Machine
end

