-- ==== Sys2Proof/Machine/Operands.lean ====
section
/-! DEFINITION. The operand forms: a register-index byte, checked before any write (spec 30_encoding.md R74,
60_exceptions.md R206, R208). An immediate is its byte as it stands (R76) and needs no operation. -/

namespace Sys2Proof.Machine

/-- R74: an operand byte of 0 to 7 names R0 to R7; 8 to 255 names no register. -/
def regIndex? (o : Byte) : Option (Fin 8) :=
  if h : o.toNat < 8 then some ⟨o.toNat, h⟩ else none

/-- `checkReg(o)` and then the rest of the instruction on the register `o` names; an operand of 8 to 255 raises
IllegalRegister instead (R206). -/
def withReg (s : State) (o : Byte) (effect : Fin 8 → Result) : Result :=
  match regIndex? o with
  | some r => effect r
  | none => .next (s.raiseFault .illegalRegister)

/-- `checkReg(o1); checkReg(o2)`, in that order (R208), and then the rest of the instruction. -/
def withRegs (s : State) (o1 o2 : Byte) (effect : Fin 8 → Fin 8 → Result) : Result :=
  withReg s o1 fun a => withReg s o2 fun b => effect a b

end Sys2Proof.Machine
end

