-- ==== Sys2Proof/Machine/Alu.lean ====
section
/-! DEFINITION. MUL, ADD and CMP (spec 43_alu.md). Operands are read as unsigned integers, the result is computed
exactly and narrowed to a byte (R171). -/

namespace Sys2Proof.Machine

/-- The low 8 bits of the 16-bit product (R172). -/
def aluMul (x y : Byte) : Byte := BitVec.ofNat 8 (x.toNat * y.toNat)

/-- The sum modulo 256; the carry out of bit 7 is discarded (R174). -/
def aluAdd (x y : Byte) : Byte := BitVec.ofNat 8 (x.toNat + y.toNat)

/-- R172 MUL regA, regB: `R[o1] <- (R[o1] * R[o2]) mod 256`. FL is not written. -/
def execMul (regA regB : Byte) (s : State) : Result :=
  withRegs s regA regB fun a b =>
    .next ((s.writeReg a (aluMul (s.readReg a) (s.readReg b))).genericAdvance (Config.opcodeValue .mul))

/-- R174 ADD regA, regB: `R[o1] <- (R[o1] + R[o2]) mod 256`. FL is not written. -/
def execAdd (regA regB : Byte) (s : State) : Result :=
  withRegs s regA regB fun a b =>
    .next ((s.writeReg a (aluAdd (s.readReg a) (s.readReg b))).genericAdvance (Config.opcodeValue .add))

/-- R175 CMP regA, regB: one flag bit from the unsigned comparison, written under the machine's `cmp_flags_policy`
(R176). No register is written. -/
def execCmp (regA regB : Byte) (s : State) : Result :=
  withRegs s regA regB fun a b =>
    .next ((s.setFl (cmpFlags s.cfg.cmpFlags s.fl (cmpBit (s.readReg a) (s.readReg b)))).genericAdvance
      (Config.opcodeValue .cmp))

end Sys2Proof.Machine
end

