-- ==== Sys2Proof/Machine/Control.lean ====
section
/-! DEFINITION. CALL, RET, JMP and the six conditional jumps (spec 42_control.md). Each has sets_pc = 1 and writes pc on
every path. -/

namespace Sys2Proof.Machine

/-- The byte after a two-byte instruction at `a`: a + 2 mod 256, CALL's return address (R142) and the fall-through of a
jump that is not taken (R141). -/
def afterTwoBytes (a : Byte) : Byte := a + 2

/-- R142 CALL reg: push a + 2, then jump to R[o1], read after the push (CALL R7: the spec's decision D13, log entry 7). -/
def execCall (reg : Byte) (s : State) : Result :=
  withReg s reg fun r =>
    let pushed := s.decSp.storeTop (afterTwoBytes s.pc)
    .next (pushed.setPc (pushed.readReg r))

/-- R145 RET: `pc <- MemRead(R[7], 1)`, then increment R[7]. -/
def execRet (s : State) : Result :=
  .next (s.setPc s.loadTop).incSp

/-- R148 JMP reg: `pc <- R[o1]`. -/
def execJmp (reg : Byte) (s : State) : Result :=
  withReg s reg fun r => .next (s.setPc (s.readReg r))

/-- The shared pseudocode of the six conditional jumps: the register is checked whether or not the jump is taken (R206),
and a jump that is not taken falls through to a + 2 (R141). -/
def condJump (taken : Bool) (reg : Byte) (s : State) : Result :=
  withReg s reg fun r => .next (s.setPc (if taken then s.readReg r else afterTwoBytes s.pc))

/-- R150 JEQ reg. -/
def execJeq (reg : Byte) (s : State) : Result := condJump (condEq s.fl) reg s

/-- R152 JNE reg. -/
def execJne (reg : Byte) (s : State) : Result := condJump (condNe s.fl) reg s

/-- R154 JGT reg. -/
def execJgt (reg : Byte) (s : State) : Result := condJump (condGt s.fl) reg s

/-- R156 JLT reg. -/
def execJlt (reg : Byte) (s : State) : Result := condJump (condLt s.fl) reg s

/-- R158 JGE reg. -/
def execJge (reg : Byte) (s : State) : Result := condJump (condGe s.fl) reg s

/-- R160 JLE reg. -/
def execJle (reg : Byte) (s : State) : Result := condJump (condLe s.fl) reg s

end Sys2Proof.Machine
end

