-- ==== Sys2Proof/Machine/LoadOutputHalt.lean ====
section
/-! DEFINITION. LDI, PRN and HLT (spec 40_load_output_halt.md). -/

namespace Sys2Proof.Machine

/-- R100 LDI reg, imm: `R[o1] <- o2`. -/
def execLdi (reg imm : Byte) (s : State) : Result :=
  withReg s reg fun r => .next ((s.writeReg r imm).genericAdvance (Config.opcodeValue .ldi))

/-- R105 PRN reg: `Output(R[o1])`. -/
def execPrn (reg : Byte) (s : State) : Result :=
  withReg s reg fun r => .next ((s.output (s.readReg r)).genericAdvance (Config.opcodeValue .prn))

/-- R110 HLT: `run <- Halted`, then the generic advance (the spec's decision D6; log entry 6). -/
def execHlt (s : State) : Result :=
  .next (s.halt.genericAdvance (Config.opcodeValue .hlt))

end Sys2Proof.Machine
end

