-- ==== Sys2Proof/Machine/Stack.lean ====
section
/-! DEFINITION. PUSH and POP (spec 41_stack.md). The statements of each rule run in the written order, which fixes
PUSH R7 and POP R7 (00_scope.md R11; the spec's decision D13, log entry 7). -/

namespace Sys2Proof.Machine

/-- R120 PUSH reg: decrement SP, then store R[o1], read after the decrement, at the new SP. -/
def execPush (reg : Byte) (s : State) : Result :=
  withReg s reg fun r =>
    .next ((s.decSp.storeTop (s.decSp.readReg r)).genericAdvance (Config.opcodeValue .push))

/-- R125 POP reg: load R[o1] from memory[SP], then increment R[7] as it stands after that write. -/
def execPop (reg : Byte) (s : State) : Result :=
  withReg s reg fun r =>
    .next ((s.writeReg r s.loadTop).incSp.genericAdvance (Config.opcodeValue .pop))

end Sys2Proof.Machine
end

