-- ==== Sys2Proof/Machine/UnknownOpcode.lean ====
section
/-! DEFINITION. What a fetched byte that is not one of the 17 opcodes does (spec 30_encoding.md R82). -/

namespace Sys2Proof.Machine

/-- R82. Strict: IllegalOpcode, no state but `run` changes. Permissive: no effect but the generic advance of step 5, so
that a byte with bit 4 set leaves pc where it is (90_conflicts.md C3; log entry 15). -/
def execUnknownOpcode (op : Byte) (s : State) : Result :=
  match s.cfg.unknownOpcode with
  | .strict => .next (s.raiseFault .illegalOpcode)
  | .permissive => .next (s.genericAdvance op)

end Sys2Proof.Machine
end

