-- ==== Sys2Proof/Machine/Step.lean ====
section
/-! DEFINITION. One fetch-decode-execute step (spec 30_encoding.md R80). -/

namespace Sys2Proof.Machine

/-- R80. A running core fetches three bytes at pc and dispatches on the first; a core that is Halted or Faulted takes no
step. The generic advance of step 5 is the last act of each meaning. -/
def step (s : State) : Host.Outcome State Fault Refusal :=
  match s.run with
  | .halted => stepWhenHalted
  | .faulted record => stepWhenFaulted record
  | .running =>
    match decode s.fetchOp s.fetchO1 s.fetchO2 with
    | .ok i => exec i s
    | .error _ => execUnknownOpcode s.fetchOp s

/-- `s` with an instruction of the opcode table's numbering placed at pc, and running, so that the next step fetches and
runs it. It stands for the load of a program (log entry 10); it is no act of the core. -/
def State.withFetchWord (s : State) (nbits w : Nat) : State :=
  { s.writeBytes s.pc [tableByte nbits w 0, tableByte nbits w 1, tableByte nbits w 2] with run := .running }

end Sys2Proof.Machine
end

