-- ==== Sys2Proof/Machine/Ports.lean ====
section
/-! DEFINITION. The ports of the block around the core: reset, load, step, and what the host can read (spec 10_state.md
R40 to R45, 70_reset_and_hazards.md R230 to R236). -/

namespace Sys2Proof.Machine

/-! ### Reset and load on the core's state -/

/-- R230, R232: reset from any run state. `out` is not changed (R42), and neither are the machine's parameters. -/
def State.applyReset (s : State) : State := { State.reset with out := s.out, cfg := s.cfg }

/-- R236: `memory[i] <- b[i]` for i in 0..n-1; nothing else changes. -/
def State.loadImage (s : State) (image : List Byte) : State := s.writeBytes 0 image

/-! ### The block -/

/-- The block of R43: the core, and whether a step has run since the last reset, which the `load` port asks for (R236;
log entry 12). -/
structure Block where
  core    : State
  stepped : Bool
  deriving DecidableEq, Repr

/-- A block right after the first reset. -/
def Block.init : Block := { core := State.reset, stepped := false }

/-- The `reset` port: allowed in any run state (R232). -/
def Block.reset (b : Block) : Block := { core := b.core.applyReset, stepped := false }

/-- The core is as reset left it and no step has run since (R236). -/
def Block.fresh (b : Block) : Bool := !b.stepped && b.core == b.core.applyReset

/-- The `load` port: at most 256 bytes, on a core as reset left it; otherwise refused (R236, D10). -/
def Block.load (b : Block) (image : List Byte) : Host.Outcome Block Fault Refusal :=
  if image.length > 256 then .refused .imageTooLong
  else if b.fresh then .next { b with core := b.core.loadImage image }
  else .refused .coreNotFresh

/-- The `step` port: one step of the core (R43, R80). -/
def Block.step (b : Block) : Host.Outcome Block Fault Refusal :=
  match Machine.step b.core with
  | .next t => .next { core := t, stepped := true }
  | .fault f => .fault f
  | .refused r => .refused r

/-- The `run` port (R43). -/
def Block.run (b : Block) : RunState := b.core.run

/-- The `out` port (R43). -/
def Block.out (b : Block) : List Byte := b.core.out

/-- The state read port: the host may read the whole state once the core is not Running (R43, R44). -/
def Block.stateRead (b : Block) : Option State :=
  if b.core.run = .running then none else some b.core

/-- The host clears `out`, which reset does not: "a host action" (R42). DESIGN CHOICE (log entry 19): R42 gives the
action no condition and R45 does not list it, and the model allows it in any run state, between any two steps. -/
def Block.clearOut (b : Block) : Block := { b with core := { b.core with out := [] } }

/-! ### The text of the output stream (R41) -/

/-- The decimal digit character of a number below 10. -/
def digitChar (n : Nat) : Char := Char.ofNat (48 + n)

/-- A byte as an unsigned decimal integer: no sign, no leading zeros, 0 is "0" (R41). -/
def decimal (v : Byte) : List Char :=
  let n := v.toNat
  if n < 10 then [digitChar n]
  else if n < 100 then [digitChar (n / 10), digitChar (n % 10)]
  else [digitChar (n / 100), digitChar (n / 10 % 10), digitChar (n % 10)]

/-- The text of an output stream: each byte in decimal, followed by one newline character (R41; log entry 13). -/
def outText (out : List Byte) : List Char := out.flatMap fun v => decimal v ++ ['\n']

end Sys2Proof.Machine
end

