-- ==== Sys2Proof/Machine/Asm.lean ====
section
/-! DEFINITION. The assembly syntax of spec 30_encoding.md R84: it fixes how programs are written, and has no effect on
the machine (92_eei_decisions.md D14). Points R84 leaves open are log entry 14. -/

namespace Sys2Proof.Machine

/-- The spelling of each mnemonic (R3, R84). -/
def mnemonicText : Mnemonic → List Char
  | .hlt => "HLT".toList
  | .ldi => "LDI".toList
  | .prn => "PRN".toList
  | .push => "PUSH".toList
  | .pop => "POP".toList
  | .call => "CALL".toList
  | .ret => "RET".toList
  | .jmp => "JMP".toList
  | .jeq => "JEQ".toList
  | .jne => "JNE".toList
  | .jgt => "JGT".toList
  | .jlt => "JLT".toList
  | .jle => "JLE".toList
  | .jge => "JGE".toList
  | .add => "ADD".toList
  | .mul => "MUL".toList
  | .cmp => "CMP".toList

/-! ### Writing -/

/-- A register is written `R0` to `R7` (R84). -/
def regText (o : Byte) : List Char := 'R' :: decimal o

/-- The operands of an instruction as text, in encoding order. -/
def operandTexts (i : Instr) : List (List Char) :=
  match i with
  | .ldi reg imm => [regText reg, decimal imm]
  | i => i.regOperands.map regText

/-- An instruction as the source writes it: the mnemonic, then its operands separated by commas (R84). -/
def instrText (i : Instr) : List Char :=
  match operandTexts i with
  | [] => mnemonicText i.mnemonic
  | o :: os => mnemonicText i.mnemonic ++ ' ' :: o ++ os.flatMap fun p => ',' :: p

/-! ### Reading -/

/-- The pieces of a text between the characters that satisfy `p`. -/
def splitText (p : Char → Bool) : List Char → List (List Char)
  | [] => [[]]
  | c :: cs =>
    if p c then [] :: splitText p cs
    else match splitText p cs with
      | [] => [[c]]
      | w :: ws => (c :: w) :: ws

/-- A blank between the parts of an instruction. -/
def isBlank (c : Char) : Bool := c == ' ' || c == '\t' || c == '\r'

/-- A text without the blanks at its two ends. -/
def trimText (t : List Char) : List Char := ((t.dropWhile isBlank).reverse.dropWhile isBlank).reverse

/-- The value of a digit, in any base up to 16. -/
def digitValue (c : Char) : Option Nat :=
  let n := c.toNat
  if 48 ≤ n ∧ n ≤ 57 then some (n - 48)
  else if 65 ≤ n ∧ n ≤ 70 then some (n - 55)
  else if 97 ≤ n ∧ n ≤ 102 then some (n - 87)
  else none

/-- The value of a string of digits in a base, from the value read so far. -/
def readDigits (base : Nat) : Nat → List Char → Option Nat
  | acc, [] => some acc
  | acc, c :: cs =>
    match digitValue c with
    | none => none
    | some d => if d < base then readDigits base (acc * base + d) cs else none

/-- A number in a base: at least one digit, and in 0 to 255. -/
def readByteIn (base : Nat) (t : List Char) : Option Byte :=
  if t = [] then none
  else match readDigits base 0 t with
    | none => none
    | some n => if n < 256 then some (BitVec.ofNat 8 n) else none

/-- An immediate: decimal, `0x` hexadecimal or `0b` binary, in 0 to 255 (R84). -/
def readImm : List Char → Option Byte
  | '0' :: 'x' :: t => readByteIn 16 t
  | '0' :: 'b' :: t => readByteIn 2 t
  | t => readByteIn 10 t

/-- A register `R0` to `R7`; `Rk` is the byte k (R84). -/
def readRegister : List Char → Option Byte
  | ['R', d] =>
    match digitValue d with
    | none => none
    | some n => if n < 8 then some (BitVec.ofNat 8 n) else none
  | _ => none

/-- The instruction of a name and its operand texts, in the name's format (R73, R84). -/
def instrOfParts (m : Mnemonic) (ops : List (List Char)) : Option Instr :=
  match m.format, ops with
  | .f0, [] => some (m.withOperands 0 0)
  | .f1r, [a] =>
    match readRegister a with
    | some x => some (m.withOperands x 0)
    | none => none
  | .f2ri, [a, b] =>
    match readRegister a, readImm b with
    | some x, some y => some (m.withOperands x y)
    | _, _ => none
  | .f2rr, [a, b] =>
    match readRegister a, readRegister b with
    | some x, some y => some (m.withOperands x y)
    | _, _ => none
  | _, _ => none

/-- One instruction from its text (R84). -/
def parseInstr (text : List Char) : Option Instr :=
  let t := trimText text
  let name := t.takeWhile fun c => !isBlank c
  let rest := trimText (t.dropWhile fun c => !isBlank c)
  let ops := if rest = [] then [] else (splitText (· == ',') rest).map trimText
  match Mnemonic.all.find? fun m => mnemonicText m == name with
  | none => none
  | some m => instrOfParts m ops

/-- A program from its text: instructions separated by `;` or newlines; blank pieces are skipped (R84). -/
def parseProgram (text : List Char) : Option (List Instr) :=
  ((splitText (fun c => c == ';' || c == '\n') text).filter fun p => trimText p != []).mapM parseInstr

/-- The program image of a text: each instruction's opcode byte followed by its operand bytes (R84, R86). -/
def assemble (text : List Char) : Option (List Byte) := (parseProgram text).map encodeProgram

end Sys2Proof.Machine
end

