-- ==== Sys2Proof/Safety.lean ====
section
/-! DEFINITION. Runs and their ends, what a safe run is, and the invariant of the core (spec 70_reset_and_hazards.md R238
to R246, 10_state.md R30 to R35). -/

namespace Sys2Proof.Machine

/-! ### Runs (R240) -/

/-- The state after at most `k` steps: the run stays where the core takes no step. -/
def stateAfter : Nat → State → State
  | 0, s => s
  | k + 1, s =>
    match step s with
    | .next t => stateAfter k t
    | .fault _ => s
    | .refused _ => s

/-- The normal end of a run: HLT is reached (R240). -/
def Halts (s : State) : Prop := ∃ k, (stateAfter k s).run = .halted

/-- The abnormal end of a run (R240). -/
def EndsFaulted (s : State) : Prop := ∃ k record, (stateAfter k s).run = .faulted record

/-- An infinite run: defined behaviour, not an error (R242). -/
def NeverEnds (s : State) : Prop := ∀ k, (stateAfter k s).run = .running

/-- A safe run never faults; it may end in HLT or go on for ever. -/
def SafeRun (s : State) : Prop := ¬ EndsFaulted s

/-- The next push lands outside an image of `n` bytes loaded from address 0: a program's obligation, which the core does
not check (R238, R246). -/
def StackClearOf (n : Nat) (s : State) : Prop := n ≤ s.pushAddr.toNat

/-! ### The invariant -/

/-- A fault record tells the truth about the state it stands in (R31, R201, R203): its address is the pc, its bytes are
the bytes there, and its cause applies to them. -/
structure RecordDescribes (record : FaultRecord) (s : State) : Prop where
  addr  : record.addr = s.pc
  op    : record.op = s.fetchOp
  o1    : record.o1 = s.fetchO1
  o2    : record.o2 = s.fetchO2
  cause : match record.cause with
    | .illegalOpcode =>
      s.cfg.unknownOpcode = .strict ∧ decode record.op record.o1 record.o2 = .error (.unknownOpcode record.op)
    | .illegalRegister => ∃ i, decode record.op record.o1 record.o2 = .ok i ∧ i.wellFormed = false

/-- What holds of every state the core reaches: memory is in canonical form, bits 7 to 3 of FL are 0 (R35), at most one
flag is set under ClearThenSet (R161, R176), and a fault record describes the state (R203). -/
structure State.Inv (s : State) : Prop where
  memWf      : s.mem.wf
  flReserved : s.fl &&& 0xF8 = 0
  flOneBit   : s.cfg.cmpFlags = .clearThenSet → s.fl ∈ [0b000, 0b001, 0b010, 0b100]
  record     : ∀ record, s.run = .faulted record → RecordDescribes record s

end Sys2Proof.Machine
end

