-- ==== Sys2Proof/Certificates/Slice0/Obligations.lean ====
section
/-! DEFINITION. The statements for the provers. Each says what the machine does in terms of `exec`, `step` and the readers
`readReg` and `readMem`; nothing here is about a program. -/

open Sys2Proof Sys2Proof.Machine

/-! ### Words shared by the statements -/

namespace Sys2Proof.Stmt

/-- The instruction's encoding is exactly these bytes, and these bytes decode to it. -/
def EncodedAs (i : Instr) (bytes : List Byte) : Prop :=
  encode i = bytes ∧ decodeBytes bytes = .ok (i, [])

/-- The state after a fault: `run` alone changes, and holds the cause, the address of the opcode byte and the three
bytes there (R31, R203). -/
def faultState (c : Cause) (s : State) : State :=
  { s with
    run := .faulted
      { cause := c, addr := s.pc, op := s.readMem s.pc, o1 := s.readMem (s.pc + 1), o2 := s.readMem (s.pc + 2) } }

/-- The instruction raises IllegalRegister and has no other effect (R203, R206). -/
def RaisesIllegalRegister (i : Instr) (s : State) : Prop :=
  exec i s = .next (faultState .illegalRegister s)

/-- Every byte of memory reads as before. -/
def SameMemory (s t : State) : Prop := ∀ a, t.readMem a = s.readMem a

/-- The flags, the run state, the output and the parameters are as before. -/
def SameControl (s t : State) : Prop := t.fl = s.fl ∧ t.run = s.run ∧ t.out = s.out ∧ t.cfg = s.cfg

/-- One conditional jump as its rule gives it: the encoding; an operand of 8 to 255 faults, taken or not; otherwise pc
alone changes, to the named register if the condition holds and to the byte after the jump's two bytes if not. -/
def CondJumpRule (mk : Byte → Instr) (op : Byte) (cond : Byte → Bool) : Prop :=
  ∀ (s : State) (o1 : Byte),
    EncodedAs (mk o1) [op, o1] ∧
    (7 < o1.toNat → RaisesIllegalRegister (mk o1) s) ∧
    ∀ h : o1.toNat < 8,
      exec (mk o1) s = .next { s with pc := if cond s.fl then s.readReg ⟨o1.toNat, h⟩ else s.pc + 2 }

/-- MUL or ADD as its rule gives it: regA receives a byte whose value is `f` of the two register values, nothing else
changes but pc, and an operand of 8 to 255 in either place faults. -/
def ArithRule (mk : Byte → Byte → Instr) (op : Byte) (f : Nat → Nat → Nat) : Prop :=
  ∀ (s : State) (o1 o2 : Byte),
    EncodedAs (mk o1 o2) [op, o1, o2] ∧
    (7 < o1.toNat ∨ 7 < o2.toNat → RaisesIllegalRegister (mk o1 o2) s) ∧
    ∀ (h1 : o1.toNat < 8) (h2 : o2.toNat < 8),
      ∃ t, exec (mk o1 o2) s = .next t ∧ t.pc = s.pc + 3 ∧
        (t.readReg ⟨o1.toNat, h1⟩).toNat =
          f (s.readReg ⟨o1.toNat, h1⟩).toNat (s.readReg ⟨o2.toNat, h2⟩).toNat ∧
        (∀ q : Fin 8, q.val ≠ o1.toNat → t.readReg q = s.readReg q) ∧
        SameMemory s t ∧ SameControl s t

/-- The 17 opcode bytes of R77. -/
def opcodes : List Byte :=
  [0x01, 0x82, 0x47, 0x45, 0x46, 0x50, 0x11, 0x54, 0x55, 0x56, 0x57, 0x58, 0x59, 0x5A, 0xA0, 0xA2, 0xA7]

/-- The instruction is one of the six conditional jumps. -/
def isCondJump : Instr → Bool
  | .jeq _ | .jne _ | .jgt _ | .jlt _ | .jle _ | .jge _ => true
  | .hlt | .ldi _ _ | .prn _ | .push _ | .pop _ | .call _ | .ret | .jmp _ | .add _ _ | .mul _ _ | .cmp _ _ => false

end Sys2Proof.Stmt

open Sys2Proof.Stmt

/-! ### Encoding -/

/-- 30_encoding.md R70, R73, R77: decoding the encoding of any instruction, whatever its operand bytes, gives it back
and leaves the bytes after it. Well-formed instructions are among these. -/
def Obligations.DecodeOfEncodeIsTheInstruction : Prop :=
  ∀ (i : Instr) (rest : List Byte), decodeBytes (encode i ++ rest) = .ok (i, rest)

/-- 30_encoding.md R70, R73, R78: bytes that decode to an instruction are that instruction's encoding: no two byte
strings mean one instruction. -/
def Obligations.EncodeOfDecodeIsTheBytes : Prop :=
  ∀ (bs : List Byte) (i : Instr) (rest : List Byte), decodeBytes bs = .ok (i, rest) → encode i ++ rest = bs

/-- Words written out bit by bit from the `encoding` column of the opcode table (30_encoding.md R77). -/
def Obligations.TableWordsDecode : Prop :=
  decodeTableWord 8 0b00000001 = some .hlt ∧
  decodeTableWord 24 0b00001000_00000001_10000010 = some (.ldi 1 8) ∧
  decodeTableWord 16 0b00000111_01000101 = some (.push 7) ∧
  decodeTableWord 16 0b00000011_01010101 = some (.jeq 3) ∧
  decodeTableWord 24 0b00000001_00000110_10100010 = some (.mul 6 1) ∧
  decodeTableWord 8 0b00000000 = none

/-- 30_encoding.md R78, R79: a byte is dispatched if and only if it is one of the 17 opcodes, whatever the operand bytes
are; every other byte is rejected by name. -/
def Obligations.ExactlySeventeenOpcodesDecode : Prop :=
  ∀ op o1 o2 : Byte,
    (op ∈ opcodes → ∃ i, decode op o1 o2 = .ok i) ∧
    (op ∉ opcodes → decode op o1 o2 = .error (.unknownOpcode op))

/-- 30_encoding.md R75: an operand byte beyond the opcode's operand_count (bits 7..6) is ignored. -/
def Obligations.UnusedOperandBytesIgnored : Prop :=
  ∀ op o1 o2 p1 p2 : Byte,
    (op >>> 6 = 0 → decode op o1 o2 = decode op p1 p2) ∧
    (op >>> 6 = 1 → decode op o1 o2 = decode op o1 p2)

/-! ### The instructions -/

/-- 40_load_output_halt.md R100: the encoding, the fault on an operand of 8 to 255 that the rule names, the new value of
the register, R7 included, and that nothing else changes but pc. -/
def Obligations.LdiLoadsTheImmediate : Prop :=
  ∀ (s : State) (o1 o2 : Byte),
    EncodedAs (.ldi o1 o2) [0x82, o1, o2] ∧
    (7 < o1.toNat → RaisesIllegalRegister (.ldi o1 o2) s) ∧
    ∀ h : o1.toNat < 8,
      ∃ t, exec (.ldi o1 o2) s = .next t ∧ t.pc = s.pc + 3 ∧
        t.readReg ⟨o1.toNat, h⟩ = o2 ∧
        (∀ q : Fin 8, q.val ≠ o1.toNat → t.readReg q = s.readReg q) ∧
        SameMemory s t ∧ SameControl s t

/-- 40_load_output_halt.md R105, with the fault on an operand of 8 to 255 that the rule names. Nothing but `out` and pc changes. -/
def Obligations.PrnAppendsTheRegister : Prop :=
  ∀ (s : State) (o1 : Byte),
    EncodedAs (.prn o1) [0x47, o1] ∧
    (7 < o1.toNat → RaisesIllegalRegister (.prn o1) s) ∧
    ∀ h : o1.toNat < 8,
      exec (.prn o1) s = .next { s with out := s.out ++ [s.readReg ⟨o1.toNat, h⟩], pc := s.pc + 2 }

/-- 40_load_output_halt.md HLT: the run state becomes Halted and nothing else changes but pc. The halted pc is the
spec's decision D6 and "should not carry a claim" (10_state.md R44), so none is made (log entry 6). -/
def Obligations.HltHalts : Prop :=
  EncodedAs .hlt [0x01] ∧ ∀ s : State, ∃ p, exec .hlt s = .next { s with run := .halted, pc := p }

/-- 41_stack.md PUSH. The byte stored is R[o1] read after the decrement of SP, which matters for PUSH R7 only: the spec's
decision D13 (log entry 7). The address stored to is `pushAddr`, SP - 1 mod 256. -/
def Obligations.PushStoresBelowTheStackPointer : Prop :=
  ∀ (s : State) (o1 : Byte),
    EncodedAs (.push o1) [0x45, o1] ∧
    (7 < o1.toNat → RaisesIllegalRegister (.push o1) s) ∧
    s.pushAddr = s.readReg 7 - 1 ∧
    ∀ h : o1.toNat < 8,
      ∃ t, exec (.push o1) s = .next t ∧ t.pc = s.pc + 2 ∧
        t.readReg 7 = s.readReg 7 - 1 ∧
        (∀ q : Fin 8, q ≠ 7 → t.readReg q = s.readReg q) ∧
        t.readMem s.pushAddr = (if o1 = 7 then s.readReg 7 - 1 else s.readReg ⟨o1.toNat, h⟩) ∧
        (∀ a, a ≠ s.pushAddr → t.readMem a = s.readMem a) ∧
        SameControl s t

/-- 41_stack.md POP. POP R7 leaves memory[old SP] + 1 in R7, the spec's decision D13 (log entry 7). -/
def Obligations.PopLoadsFromTheStackPointer : Prop :=
  ∀ (s : State) (o1 : Byte),
    EncodedAs (.pop o1) [0x46, o1] ∧
    (7 < o1.toNat → RaisesIllegalRegister (.pop o1) s) ∧
    ∀ h : o1.toNat < 8,
      ∃ t, exec (.pop o1) s = .next t ∧ t.pc = s.pc + 2 ∧
        (o1 ≠ 7 → t.readReg ⟨o1.toNat, h⟩ = s.readMem (s.readReg 7) ∧ t.readReg 7 = s.readReg 7 + 1) ∧
        (o1 = 7 → t.readReg 7 = s.readMem (s.readReg 7) + 1) ∧
        (∀ q : Fin 8, q ≠ 7 → q.val ≠ o1.toNat → t.readReg q = s.readReg q) ∧
        SameMemory s t ∧ SameControl s t

/-- 42_control.md CALL. The target is read after the push, which matters for CALL R7 only: the spec's decision D13 (log
entry 7). -/
def Obligations.CallPushesTheReturnAddress : Prop :=
  ∀ (s : State) (o1 : Byte),
    EncodedAs (.call o1) [0x50, o1] ∧
    (7 < o1.toNat → RaisesIllegalRegister (.call o1) s) ∧
    s.pushAddr = s.readReg 7 - 1 ∧
    ∀ h : o1.toNat < 8,
      ∃ t, exec (.call o1) s = .next t ∧
        t.pc = (if o1 = 7 then s.readReg 7 - 1 else s.readReg ⟨o1.toNat, h⟩) ∧
        t.readReg 7 = s.readReg 7 - 1 ∧
        (∀ q : Fin 8, q ≠ 7 → t.readReg q = s.readReg q) ∧
        t.readMem s.pushAddr = s.pc + 2 ∧
        (∀ a, a ≠ s.pushAddr → t.readMem a = s.readMem a) ∧
        SameControl s t

/-- 42_control.md R145: pc receives the byte at SP, SP is incremented, nothing else changes. -/
def Obligations.RetPopsThePc : Prop :=
  EncodedAs .ret [0x11] ∧
  ∀ s : State,
    ∃ t, exec .ret s = .next t ∧ t.pc = s.readMem (s.readReg 7) ∧
      t.readReg 7 = s.readReg 7 + 1 ∧
      (∀ q : Fin 8, q ≠ 7 → t.readReg q = s.readReg q) ∧
      SameMemory s t ∧ SameControl s t

/-- 42_control.md R148. Nothing but pc changes, and FL plays no part. -/
def Obligations.JmpGoesToTheRegister : Prop :=
  ∀ (s : State) (o1 : Byte),
    EncodedAs (.jmp o1) [0x54, o1] ∧
    (7 < o1.toNat → RaisesIllegalRegister (.jmp o1) s) ∧
    ∀ h : o1.toNat < 8, exec (.jmp o1) s = .next { s with pc := s.readReg ⟨o1.toNat, h⟩ }

/-- 42_control.md R150, R152, R154, R156, R158, R160: JEQ on bit 0 (E), JNE on its absence, JGT on bit 2 (G), JLT on
bit 1 (L), JGE on G or E, JLE on L or E; each for every FL, the combinations only OrIn reaches included. The fault on an
operand of 8 to 255, taken or not, is the spec's decision D5 in the shared text of 42_control.md, section Conditional jumps
(log entry 5). The fall-through to a + 2 mod 256 is R141, whose + 2 is conflict C2's resolution and whose mod 256 is the
spec's decision D2 (log entry 4). So the statement is derived. -/
def Obligations.ConditionalJumpsTestTheirFlags : Prop :=
  CondJumpRule .jeq 0x55 (fun fl => fl.getLsbD 0) ∧
  CondJumpRule .jne 0x56 (fun fl => !fl.getLsbD 0) ∧
  CondJumpRule .jgt 0x57 (fun fl => fl.getLsbD 2) ∧
  CondJumpRule .jlt 0x58 (fun fl => fl.getLsbD 1) ∧
  CondJumpRule .jge 0x5A (fun fl => fl.getLsbD 2 || fl.getLsbD 0) ∧
  CondJumpRule .jle 0x59 (fun fl => fl.getLsbD 1 || fl.getLsbD 0)

/-- 43_alu.md R172: the product of the unsigned values modulo 256; FL is unchanged. -/
def Obligations.MulIsProductModulo256 : Prop := ArithRule .mul 0xA2 (fun x y => x * y % 256)

/-- 43_alu.md R174: the sum of the unsigned values modulo 256; FL is unchanged. -/
def Obligations.AddIsSumModulo256 : Prop := ArithRule .add 0xA0 (fun x y => (x + y) % 256)

/-- 43_alu.md R175: one bit by unsigned comparison, alone under ClearThenSet and ORed in under OrIn; nothing else
changes but pc. -/
def Obligations.CmpSetsTheFlagOfTheOrder : Prop :=
  ∀ (s : State) (o1 o2 : Byte),
    EncodedAs (.cmp o1 o2) [0xA7, o1, o2] ∧
    (7 < o1.toNat ∨ 7 < o2.toNat → RaisesIllegalRegister (.cmp o1 o2) s) ∧
    ∀ (h1 : o1.toNat < 8) (h2 : o2.toNat < 8),
      ∃ bit : Byte,
        ((s.readReg ⟨o1.toNat, h1⟩).toNat > (s.readReg ⟨o2.toNat, h2⟩).toNat → bit = 0b100) ∧
        ((s.readReg ⟨o1.toNat, h1⟩).toNat < (s.readReg ⟨o2.toNat, h2⟩).toNat → bit = 0b010) ∧
        ((s.readReg ⟨o1.toNat, h1⟩).toNat = (s.readReg ⟨o2.toNat, h2⟩).toNat → bit = 0b001) ∧
        (s.cfg.cmpFlags = .clearThenSet → exec (.cmp o1 o2) s = .next { s with fl := bit, pc := s.pc + 3 }) ∧
        (s.cfg.cmpFlags = .orIn → exec (.cmp o1 o2) s = .next { s with fl := s.fl ||| bit, pc := s.pc + 3 })

/-- 43_alu.md R171: read as two's-complement signed bytes, MUL and ADD are the wrapped signed product and sum. The spec
marks this law as derived. -/
def Obligations.MulAndAddAreSignedToo : Prop :=
  ∀ (s : State) (o1 o2 : Byte) (h1 : o1.toNat < 8) (h2 : o2.toNat < 8),
    (∃ t, exec (.mul o1 o2) s = .next t ∧
      t.readReg ⟨o1.toNat, h1⟩ =
        BitVec.ofInt 8 ((s.readReg ⟨o1.toNat, h1⟩).toInt * (s.readReg ⟨o2.toNat, h2⟩).toInt)) ∧
    (∃ t, exec (.add o1 o2) s = .next t ∧
      t.readReg ⟨o1.toNat, h1⟩ =
        BitVec.ofInt 8 ((s.readReg ⟨o1.toNat, h1⟩).toInt + (s.readReg ⟨o2.toNat, h2⟩).toInt))

/-- 42_control.md R161: under ClearThenSet, after a CMP that raises no fault, exactly one of JGT, JLT, JEQ is taken, and
JGE, JLE, JNE are the opposites of JLT, JGT, JEQ. "Taken" is: does what JMP does, at every operand of 0 to 7; "not
taken" is: falls through at every such operand. -/
def Obligations.AfterCmpExactlyOneOrderHolds : Prop :=
  ∀ (s t : State) (o1 o2 : Byte), s.cfg.cmpFlags = .clearThenSet → o1.toNat < 8 → o2.toNat < 8 →
    exec (.cmp o1 o2) s = .next t →
    let taken := fun mk : Byte → Instr => ∀ r : Byte, r.toNat < 8 → exec (mk r) t = exec (.jmp r) t
    let falls := fun mk : Byte → Instr => ∀ r : Byte, r.toNat < 8 → exec (mk r) t = .next { t with pc := t.pc + 2 }
    (taken .jgt ∧ falls .jlt ∧ falls .jeq ∧ taken .jge ∧ falls .jle ∧ taken .jne) ∨
    (falls .jgt ∧ taken .jlt ∧ falls .jeq ∧ falls .jge ∧ taken .jle ∧ taken .jne) ∨
    (falls .jgt ∧ falls .jlt ∧ taken .jeq ∧ taken .jge ∧ taken .jle ∧ falls .jne)

/-! ### Rules about every instruction and every step -/

/-- 10_state.md R33: `FL` is written only by CMP, said of every instruction and of every step. -/
def Obligations.FlagsWrittenOnlyByCmp : Prop :=
  (∀ (i : Instr) (s t : State), (∀ a b, i ≠ .cmp a b) → exec i s = .next t → t.fl = s.fl) ∧
  (∀ s t : State, s.fetchOp ≠ 0xA7 → step s = .next t → t.fl = s.fl)

/-- 10_state.md R34: two states that differ in FL alone lead to states with the same memory, registers, output and run
state, and with the same pc too unless the instruction is a conditional jump. -/
def Obligations.FlagsSeenOnlyByConditionalJumps : Prop :=
  ∀ (i : Instr) (s t : State) (fl : Byte), exec i s = .next t →
    ∃ t', exec i { s with fl := fl } = .next t' ∧
      t'.mem = t.mem ∧ t'.regs = t.regs ∧ t'.out = t.out ∧ t'.run = t.run ∧ t'.cfg = t.cfg ∧
      (isCondJump i = false → t'.pc = t.pc)

/-- 20_memory.md R54: a step changes a byte of memory only if it runs PUSH or CALL, and only at SP - 1 mod 256. -/
def Obligations.MemoryWrittenOnlyByPushAndCall : Prop :=
  ∀ (s t : State) (a : Byte), step s = .next t → t.readMem a ≠ s.readMem a →
    a = s.readReg 7 - 1 ∧ (s.fetchOp = 0x45 ∨ s.fetchOp = 0x50)

/-- 70_reset_and_hazards.md R238: while the next push lands clear of an image of n bytes, a step leaves every byte of the
image as it is, whatever it runs. -/
def Obligations.StepKeepsTheImageWhileTheStackIsClear : Prop :=
  ∀ (s t : State) (n : Nat) (a : Byte), StackClearOf n s → a.toNat < n → step s = .next t → t.readMem a = s.readMem a

/-- 10_state.md, summary of the state, R22 and R23: a step changes a register only if it runs LDI, POP, MUL or ADD with
that register as its first operand, or the register is R7 and it runs PUSH, POP, CALL or RET. -/
def Obligations.RegistersWrittenOnlyByTheirInstructions : Prop :=
  ∀ (s t : State) (q : Fin 8), step s = .next t → t.readReg q ≠ s.readReg q →
    (s.fetchO1.toNat = q.val ∧ s.fetchOp ∈ [0x82, 0x46, 0xA2, 0xA0]) ∨
    (q = 7 ∧ s.fetchOp ∈ [0x45, 0x46, 0x50, 0x11])

/-- 40_load_output_halt.md R105, 10_state.md R40: a step leaves `out` as it is, or runs PRN on one of R0 to R7 and
appends that register's value. -/
def Obligations.OutputGrowsOnlyByPrn : Prop :=
  ∀ s t : State, step s = .next t →
    t.out = s.out ∨ (s.fetchOp = 0x47 ∧ ∃ q : Fin 8, s.fetchO1.toNat = q.val ∧ t.out = s.out ++ [s.readReg q])

/-- 10_state.md R30: Halted is entered only by executing HLT, and executing HLT always enters it. -/
def Obligations.HaltedEnteredExactlyByHlt : Prop :=
  ∀ s t : State, step s = .next t → (t.run = .halted ↔ s.fetchOp = 0x01)

/-- 60_exceptions.md R203, 10_state.md R31: a step that ends in Faulted has changed nothing but `run`, and the record
holds the instruction's address and the three bytes the step read. -/
def Obligations.FaultsAreWithoutEffect : Prop :=
  ∀ (s t : State) (record : FaultRecord), step s = .next t → t.run = .faulted record →
    t = { s with run := .faulted record } ∧
    record.addr = s.pc ∧ record.op = s.readMem s.pc ∧ record.o1 = s.readMem (s.pc + 1) ∧
    record.o2 = s.readMem (s.pc + 2)

/-- 60_exceptions.md R201, R204, R206, R208: on a running core a step raises IllegalOpcode exactly when the policy is
Strict and the byte is not one of the 17 opcodes, and IllegalRegister exactly when the byte is an opcode and a register
operand of the instruction is 8 to 255. -/
def Obligations.FaultCausesAreExact : Prop :=
  ∀ s : State, s.run = .running →
    (step s = .next (faultState .illegalOpcode s) ↔ s.cfg.unknownOpcode = .strict ∧ s.fetchOp ∉ opcodes) ∧
    (step s = .next (faultState .illegalRegister s) ↔
      ∃ i, decode s.fetchOp s.fetchO1 s.fetchO2 = .ok i ∧ ∃ o ∈ i.regOperands, 7 < o.toNat)

/-- 60_exceptions.md R214, 20_memory.md R52, 42_control.md R140: every instruction answers a next state in every state,
and a running core always takes a step. -/
def Obligations.RunningCoreAlwaysTakesAStep : Prop :=
  (∀ (i : Instr) (s : State), ∃ t, exec i s = .next t) ∧
  (∀ s : State, s.run = .running → ∃ t, step s = .next t)

/-- 30_encoding.md R80, last sentence: a core that is Halted or Faulted takes no step. That the model answers with a stop
of its own is its choice (log entry 2). -/
def Obligations.StoppedCoreTakesNoStep : Prop :=
  ∀ s : State,
    (s.run = .halted → step s = .fault .halted) ∧
    (∀ record, s.run = .faulted record → step s = .fault (.faulted record))

/-- 30_encoding.md R80 steps 1 to 4: when the bytes at pc, pc + 1 and pc + 2 (mod 256) decode to an instruction, a running
core's step is that instruction's effect. That the step adds nothing around it is the model's choice (log entry 16, DESIGN
CHOICE): R80 performs the generic advance of step 5 in the step, after the instruction's rule, and the model makes it the
last act of the meaning. Well-formed instructions are among these. -/
def Obligations.StepRunsTheDecodedInstruction : Prop :=
  ∀ (s : State) (i : Instr), s.run = .running →
    decode (s.readMem s.pc) (s.readMem (s.pc + 1)) (s.readMem (s.pc + 2)) = .ok i →
    step s = exec i s

/-- 30_encoding.md R82 (the spec's decision D3) and 90_conflicts.md C3: an unknown opcode faults under Strict; under
Permissive it changes nothing but pc, which moves by bits 7..6 plus one if bit 4 is clear and stays if bit 4 is set. -/
def Obligations.UnknownOpcodeFollowsThePolicy : Prop :=
  ∀ s : State, s.run = .running → s.readMem s.pc ∉ opcodes →
    (s.cfg.unknownOpcode = .strict → step s = .next (faultState .illegalOpcode s)) ∧
    (s.cfg.unknownOpcode = .permissive →
      step s = .next
        (if (s.readMem s.pc).getLsbD 4 then s
         else { s with pc := s.pc + BitVec.ofNat 8 ((s.readMem s.pc).toNat / 64 + 1) }))

/-- 30_encoding.md R81 (mod 256: the spec's decision D2): after a step that leaves the core Running, an opcode byte with
bit 4 clear has moved pc by bits 7..6 plus one, whatever the byte is. The halted pc is left out, as 10_state.md R44
asks (log entry 6). -/
def Obligations.GenericAdvanceByOperandCount : Prop :=
  ∀ s t : State, step s = .next t → t.run = .running → s.fetchOp.getLsbD 4 = false →
    t.pc = s.pc + BitVec.ofNat 8 (s.fetchOp.toNat / 64 + 1)

/-- The machine's parameters (00_scope.md R8) never change. That they stand in State is the model's choice (log entry
1). -/
def Obligations.ParametersNeverChange : Prop :=
  (∀ s t : State, step s = .next t → t.cfg = s.cfg) ∧ ∀ s : State, s.applyReset.cfg = s.cfg

/-! ### The invariant -/

/-- Every step keeps the invariant: memory in canonical form, bits 7 to 3 of FL zero (10_state.md R35), at most one flag
under ClearThenSet (43_alu.md R176), a fault record that describes the state (60_exceptions.md R203). -/
def Obligations.StepKeepsTheInvariant : Prop :=
  ∀ s t : State, s.Inv → step s = .next t → t.Inv

/-- The state after reset meets the invariant. -/
def Obligations.ResetMeetsTheInvariant : Prop := State.reset.Inv

/-- Every state of every run meets the invariant, whatever image of at most 256 bytes was loaded and whatever was
printed before: reset, load, then any number of steps (70_reset_and_hazards.md R234). The step lemma behind it is
`Obligations.StepKeepsTheInvariant`. -/
def Obligations.EveryReachableStateMeetsTheInvariant : Prop :=
  ∀ (s : State) (image : List Byte) (k : Nat), image.length ≤ 256 →
    (stateAfter k (s.applyReset.loadImage image)).Inv

/-! ### The stack and subroutines -/

/-- 41_stack.md R128: PUSH r then POP r leaves every register as it was, R7 and r = R7 included; memory differs only at
old SP - 1, which holds the pushed byte. -/
def Obligations.PushThenPopRestoresEveryRegister : Prop :=
  ∀ (s : State) (r : Byte), r.toNat < 8 →
    ∃ t u, exec (.push r) s = .next t ∧ exec (.pop r) t = .next u ∧
      (∀ q, u.readReg q = s.readReg q) ∧
      (∀ a, a ≠ s.readReg 7 - 1 → u.readMem a = s.readMem a) ∧
      u.readMem (s.readReg 7 - 1) = t.readMem (t.readReg 7) ∧
      (∀ h : r.toNat < 8, r ≠ 7 → u.readMem (s.readReg 7 - 1) = s.readReg ⟨r.toNat, h⟩)

/-- 42_control.md R146: if SP and the byte at SP are as CALL left them when RET executes, in whatever state that is,
execution resumes at CALL's address + 2 mod 256 with SP as before the CALL. -/
def Obligations.RetAfterCallResumesAfterTheCall : Prop :=
  ∀ (s t u : State) (o1 : Byte), o1.toNat < 8 → exec (.call o1) s = .next t →
    u.readReg 7 = t.readReg 7 → u.readMem (t.readReg 7) = t.readMem (t.readReg 7) →
    ∃ v, exec .ret u = .next v ∧ v.pc = s.pc + 2 ∧ v.readReg 7 = s.readReg 7

/-- 20_memory.md R64: a byte stored by PUSH at the address of the next instruction is the opcode byte the next step
fetches; when it is HLT's, that step halts. -/
def Obligations.NextFetchSeesThePushedByte : Prop :=
  ∀ s : State, s.run = .running → s.fetchOp = 0x45 → ∀ h : s.fetchO1.toNat < 7, s.readReg 7 - 1 = s.pc + 2 →
    ∃ t, step s = .next t ∧ t.fetchOp = s.readReg ⟨s.fetchO1.toNat, Nat.lt_succ_of_lt h⟩ ∧
      (s.readReg ⟨s.fetchO1.toNat, Nat.lt_succ_of_lt h⟩ = 0x01 → ∃ u, step t = .next u ∧ u.run = .halted)

/-! ### Reset, load, memory -/

/-- 70_reset_and_hazards.md R230: the reset port, from any state, and the first reset. -/
def Obligations.ResetLeavesTheStatedValues : Prop :=
  ∀ s : State,
    (∀ t ∈ [State.reset, s.applyReset],
      (∀ a, t.readMem a = 0x00) ∧ (∀ q : Fin 8, t.readReg q = if q = 7 then 0xF4 else 0x00) ∧
      t.pc = 0x00 ∧ t.fl = 0x00 ∧ t.run = .running) ∧
    s.applyReset.out = s.out

/-- 70_reset_and_hazards.md R236 (the spec's decision D10): on a fresh block an image of at most 256 bytes is placed from
address 0 and nothing else changes; a longer image, or a block that is not fresh, is refused. -/
def Obligations.LoadPlacesTheImageOrIsRefused : Prop :=
  ∀ (b : Block) (image : List Byte),
    (256 < image.length → b.load image = .refused .imageTooLong) ∧
    (image.length ≤ 256 → b.fresh = false → b.load image = .refused .coreNotFresh) ∧
    (image.length ≤ 256 → b.fresh = true →
      ∃ c : Block, b.load image = .next c ∧ c.stepped = false ∧
        (∀ a : Byte, c.core.readMem a = image.getD a.toNat 0x00) ∧
        { c.core with mem := b.core.mem } = b.core)

/-- 70_reset_and_hazards.md R232, R236 (the spec's decisions D10 and D12): once a step has run no load is accepted until
the next reset, and after a reset, from any run state, every image of at most 256 bytes is. -/
def Obligations.LoadNeedsAResetAfterAStep : Prop :=
  ∀ (b c : Block) (image : List Byte), b.step = .next c → image.length ≤ 256 →
    c.load image = .refused .coreNotFresh ∧ ∃ d, c.reset.load image = .next d

/-- Two memories in canonical form that read alike at every address are equal, so that equal memories are equal data
(the form is the model's, log entry 9). -/
def Obligations.CanonicalMemoriesReadingAlikeAreEqual : Prop :=
  ∀ m n : Memory, m.wf → n.wf → (∀ a : Byte, m.get a.toNat = n.get a.toNat) → m = n

/-! ### Runs -/

/-- 42_control.md R148 and 70_reset_and_hazards.md R242: a jump to its own address runs for ever. -/
def Obligations.JumpToItselfNeverEnds : Prop :=
  ∀ s : State, s.run = .running → s.fetchOp = 0x54 →
    ∀ h : s.fetchO1.toNat < 8, s.readReg ⟨s.fetchO1.toNat, h⟩ = s.pc → NeverEnds s

/-- 90_conflicts.md C3: under Permissive an unknown byte with bit 4 set is executed for ever, and the state stays as it
is. -/
def Obligations.PermissiveUnknownByteWithBitFourHangs : Prop :=
  ∀ s : State, s.run = .running → s.cfg.unknownOpcode = .permissive → s.fetchOp ∉ opcodes →
    s.fetchOp.getLsbD 4 = true → ∀ k, stateAfter k s = s

/-- 70_reset_and_hazards.md R240, R242: every run halts, faults or never ends, and no run does two of these; a state in
which it has ended is never left. -/
def Obligations.EveryRunHasExactlyOneEnd : Prop :=
  ∀ s : State,
    (Halts s ∨ EndsFaulted s ∨ NeverEnds s) ∧
    (SafeRun s ↔ Halts s ∨ NeverEnds s) ∧
    ¬ (Halts s ∧ EndsFaulted s) ∧ ¬ (Halts s ∧ NeverEnds s) ∧ ¬ (EndsFaulted s ∧ NeverEnds s) ∧
    (∀ j k, j ≤ k → (stateAfter j s).run ≠ .running → stateAfter k s = stateAfter j s)

/-! ### Text -/

/-- 30_encoding.md R84: an instruction whose register operands are R0 to R7, written in assembly, is read back as itself. -/
def Obligations.AssemblyTextReadsBack : Prop :=
  ∀ i : Instr, i.wellFormed = true → parseInstr (instrText i) = some i

/-- 10_state.md R41: the text of an output stream determines the stream. -/
def Obligations.OutputTextDeterminesTheStream : Prop :=
  ∀ xs ys : List Byte, outText xs = outText ys → xs = ys
end

