-- ==== Sys2Proof/Laws/Decode.lean ====
section
/-! SUPPORT. The opcode table as a dispatch table. -/

namespace Sys2Proof

/-- The 17 values are distinct, so dispatch finds the name of each. -/
theorem mnemonicOf?_opcodeValue (m : Mnemonic) : Config.mnemonicOf? (Config.opcodeValue m) = some m := by
  cases m <;> decide

/-- Dispatch on the whole byte (R78): a name is found only for its own value. -/
theorem opcodeValue_of_mnemonicOf? {op : Byte} {m : Mnemonic} (h : Config.mnemonicOf? op = some m) :
    Config.opcodeValue m = op := by
  simpa using List.find?_some h

/-- Bytes that decode begin with the instruction's opcode, and the instruction takes its operands from them. -/
theorem opcode_of_decode {op o1 o2 : Byte} {i : Instr} (h : decode op o1 o2 = .ok i) :
    op = Config.opcodeValue i.mnemonic ∧ i = i.mnemonic.withOperands o1 o2 := by
  simp only [decode] at h
  split at h
  · rename_i m hm
    cases h
    rw [← opcodeValue_of_mnemonicOf? hm]
    cases m <;> exact ⟨rfl, rfl⟩
  · cases h

/-- A name with its own operand bytes put back is the instruction again. -/
theorem withOperands_operands (i : Instr) (rest : List Byte) :
    i.mnemonic.withOperands ((i.operands ++ rest).getD 0 0) ((i.operands ++ rest).getD 1 0) = i := by
  cases i <;> rfl

@[simp] theorem mnemonic_withOperands (m : Mnemonic) (o1 o2 : Byte) : (m.withOperands o1 o2).mnemonic = m := by
  cases m <;> rfl

/-! ### The fields of the 17 values (R71, R77) -/

/-- The instructions that go through the ALU (43_alu.md R170). -/
def Mnemonic.usesAlu : Mnemonic → Bool
  | .add | .mul | .cmp => true
  | .hlt | .ldi | .prn | .push | .pop | .call | .ret | .jmp | .jeq | .jne | .jgt | .jlt | .jle | .jge => false

/-- The instructions that place pc themselves (42_control.md). -/
def Mnemonic.placesPc : Mnemonic → Bool
  | .call | .ret | .jmp | .jeq | .jne | .jgt | .jlt | .jle | .jge => true
  | .hlt | .ldi | .prn | .push | .pop | .add | .mul | .cmp => false

theorem isAlu_opcodeValue (m : Mnemonic) : isAlu (Config.opcodeValue m) = m.usesAlu := by
  cases m <;> decide

theorem setsPc_opcodeValue (m : Mnemonic) : setsPc (Config.opcodeValue m) = m.placesPc := by
  cases m <;> decide

theorem instrLength_opcodeValue (m : Mnemonic) : instrLength (Config.opcodeValue m) = m.format.length := by
  cases m <;> decide

/-- The generic advance of an instruction by its name (R81). -/
theorem genericAdvance_opcodeValue (s : Machine.State) (m : Mnemonic) :
    s.genericAdvance (Config.opcodeValue m) =
      if m.placesPc then s else s.setPc (s.pc + BitVec.ofNat 8 m.format.length) := by
  simp only [Machine.State.genericAdvance, Machine.nextAddr, setsPc_opcodeValue, instrLength_opcodeValue]

end Sys2Proof
end

