-- ==== Sys2Proof/Laws/Memory.lean ====
section
/-! SUPPORT. Memory: read after write, and the canonical form kept by every operation. -/

namespace Sys2Proof.Machine

@[simp] theorem Memory.get_nil (a : Nat) : Memory.get [] a = unlistedByte := rfl

theorem Memory.get_insert (m : Memory) (a : Nat) (v : Byte) (b : Nat) :
    (m.insert a v).get b = if a = b then v else m.get b := by
  induction m with
  | nil => rfl
  | cons c m ih =>
    obtain ⟨k, w⟩ := c
    by_cases h1 : a < k
    · simp [Memory.insert, h1, Memory.get]
    · by_cases h2 : k = a
      · subst h2
        by_cases h3 : k = b <;> simp [Memory.insert, Memory.get, h3]
      · simp only [Memory.insert, h1, h2, if_false, Memory.get, ih]
        by_cases h3 : k = b
        · have h4 : ¬ a = b := by omega
          simp [h3, h4]
        · simp [h3]

theorem Memory.get_remove (m : Memory) (a b : Nat) :
    (m.remove a).get b = if a = b then unlistedByte else m.get b := by
  induction m with
  | nil => simp [Memory.remove]
  | cons c m ih =>
    obtain ⟨k, w⟩ := c
    by_cases h : k = a
    · subst h
      simp only [Memory.remove, if_true, Memory.get, ih]
      by_cases h3 : k = b <;> simp [h3]
    · simp only [Memory.remove, h, if_false, Memory.get, ih]
      by_cases h3 : k = b
      · have h4 : ¬ a = b := by omega
        simp [h3, h4]
      · simp [h3]

/-- Read after write, on keys. -/
theorem Memory.get_put (m : Memory) (a : Nat) (v : Byte) (b : Nat) :
    (m.put a v).get b = if a = b then v else m.get b := by
  by_cases h : v = unlistedByte
  · simp [Memory.put, h, Memory.get_remove]
  · simp [Memory.put, h, Memory.get_insert]

theorem Memory.mem_insert {m : Memory} {a : Nat} {v : Byte} {c : Host.Cell} (h : c ∈ m.insert a v) :
    c = (a, v) ∨ c ∈ m := by
  induction m with
  | nil => simpa [Memory.insert] using h
  | cons d m ih =>
    obtain ⟨k, w⟩ := d
    simp only [Memory.insert] at h
    split at h
    · simpa using h
    · split at h
      · rcases List.mem_cons.1 h with h | h
        · exact .inl h
        · exact .inr (List.mem_cons_of_mem _ h)
      · rcases List.mem_cons.1 h with h | h
        · exact .inr (h ▸ List.mem_cons_self)
        · exact (ih h).imp_right (List.mem_cons_of_mem _)

theorem Memory.mem_remove {m : Memory} {a : Nat} {c : Host.Cell} (h : c ∈ m.remove a) : c ∈ m := by
  induction m with
  | nil => simp [Memory.remove] at h
  | cons d m ih =>
    obtain ⟨k, w⟩ := d
    simp only [Memory.remove] at h
    split at h
    · exact List.mem_cons_of_mem _ (ih h)
    · rcases List.mem_cons.1 h with h | h
      · exact h ▸ List.mem_cons_self
      · exact List.mem_cons_of_mem _ (ih h)

theorem Memory.pairwise_insert {m : Memory} (a : Nat) (v : Byte) (h : m.Pairwise fun c d => c.1 < d.1) :
    (m.insert a v).Pairwise fun c d => c.1 < d.1 := by
  induction m with
  | nil => simp [Memory.insert]
  | cons c m ih =>
    obtain ⟨k, w⟩ := c
    obtain ⟨hk, hm⟩ := List.pairwise_cons.1 h
    simp only [Memory.insert]
    split
    · rename_i hlt
      refine List.pairwise_cons.2 ⟨fun d hd => ?_, h⟩
      rcases List.mem_cons.1 hd with rfl | hd
      · exact hlt
      · exact Nat.lt_trans hlt (hk d hd)
    · split
      · rename_i heq
        subst heq
        exact List.pairwise_cons.2 ⟨hk, hm⟩
      · refine List.pairwise_cons.2 ⟨fun d hd => ?_, ih hm⟩
        rcases Memory.mem_insert hd with rfl | hd
        · simp only; omega
        · exact hk d hd

theorem Memory.pairwise_remove {m : Memory} (a : Nat) (h : m.Pairwise fun c d => c.1 < d.1) :
    (m.remove a).Pairwise fun c d => c.1 < d.1 := by
  induction m with
  | nil => simp [Memory.remove]
  | cons c m ih =>
    obtain ⟨k, w⟩ := c
    obtain ⟨hk, hm⟩ := List.pairwise_cons.1 h
    simp only [Memory.remove]
    split
    · exact ih hm
    · exact List.pairwise_cons.2 ⟨fun d hd => hk d (Memory.mem_remove hd), ih hm⟩

/-- A store inside the address space keeps the canonical form. -/
theorem Memory.wf_put {m : Memory} {a : Nat} (ha : a < 256) (v : Byte) (h : m.wf) : (m.put a v).wf := by
  by_cases hv : v = unlistedByte
  · simp only [Memory.put, hv, if_true]
    exact ⟨Memory.pairwise_remove a h.1, fun c hc => h.2 c (Memory.mem_remove hc)⟩
  · simp only [Memory.put, hv, if_false]
    refine ⟨Memory.pairwise_insert a v h.1, fun c hc => ?_⟩
    rcases Memory.mem_insert hc with rfl | hc
    · exact ⟨ha, hv⟩
    · exact h.2 c hc

/-- Reset memory is in canonical form. -/
theorem State.reset_mem_wf : State.reset.mem.wf := by decide

/-- Every store of the core keeps the canonical form: an address is a byte. -/
theorem State.writeMem_wf {s : State} (a v : Byte) (h : s.mem.wf) : (s.writeMem a v).mem.wf :=
  Memory.wf_put a.isLt v h

theorem State.writeBytes_wf {s : State} (a : Byte) (vs : List Byte) (h : s.mem.wf) :
    (s.writeBytes a vs).mem.wf := by
  induction vs generalizing s a with
  | nil => exact h
  | cons v vs ih => exact ih (a + 1) (State.writeMem_wf a v h)

theorem State.loadImage_wf {s : State} (image : List Byte) (h : s.mem.wf) : (s.loadImage image).mem.wf :=
  State.writeBytes_wf 0 image h

theorem State.applyReset_wf (s : State) : s.applyReset.mem.wf := State.reset_mem_wf

theorem State.withFetchWord_wf {s : State} (nbits w : Nat) (h : s.mem.wf) : (s.withFetchWord nbits w).mem.wf :=
  State.writeBytes_wf (s := s) s.pc _ h

/-- Read after write (R52): the written address reads the written byte, every other address as before. -/
theorem State.readMem_writeMem (s : State) (a v b : Byte) :
    (s.writeMem a v).readMem b = if a = b then v else s.readMem b := by
  simp only [State.readMem, State.writeMem, Memory.get_put, BitVec.toNat_inj]

end Sys2Proof.Machine
end

