-- ==== Sys2Proof/Laws/Ops.lean ====
section
/-! SUPPORT. What each shared operation does, said once: register access, the stack, fetch, advance, operand checks and
the step. -/

namespace Sys2Proof.Machine

/-! ### Registers -/

/-- Register read after write: no register is hardwired (R22). -/
theorem State.readReg_writeReg (s : State) (r q : Fin 8) (v : Byte) :
    (s.writeReg r v).readReg q = if r = q then v else s.readReg q := by
  simp only [State.readReg, State.writeReg, Vector.get_eq_getElem, Vector.getElem_set, Fin.val_inj]

section
variable (s : State)

@[simp] theorem State.readReg_writeMem (a v : Byte) (q : Fin 8) : (s.writeMem a v).readReg q = s.readReg q := rfl
@[simp] theorem State.readReg_setPc (t : Byte) (q : Fin 8) : (s.setPc t).readReg q = s.readReg q := rfl
@[simp] theorem State.readReg_setFl (v : Byte) (q : Fin 8) : (s.setFl v).readReg q = s.readReg q := rfl
@[simp] theorem State.readReg_output (v : Byte) (q : Fin 8) : (s.output v).readReg q = s.readReg q := rfl
@[simp] theorem State.readReg_halt (q : Fin 8) : s.halt.readReg q = s.readReg q := rfl
@[simp] theorem State.readReg_raiseFault (c : Cause) (q : Fin 8) : (s.raiseFault c).readReg q = s.readReg q := rfl

@[simp] theorem State.readMem_writeReg (r : Fin 8) (v b : Byte) : (s.writeReg r v).readMem b = s.readMem b := rfl
@[simp] theorem State.readMem_setPc (t b : Byte) : (s.setPc t).readMem b = s.readMem b := rfl
@[simp] theorem State.readMem_setFl (v b : Byte) : (s.setFl v).readMem b = s.readMem b := rfl
@[simp] theorem State.readMem_output (v b : Byte) : (s.output v).readMem b = s.readMem b := rfl
@[simp] theorem State.readMem_halt (b : Byte) : s.halt.readMem b = s.readMem b := rfl
@[simp] theorem State.readMem_raiseFault (c : Cause) (b : Byte) : (s.raiseFault c).readMem b = s.readMem b := rfl
end

/-! ### The stack -/

theorem State.readReg_decSp (s : State) (q : Fin 8) :
    s.decSp.readReg q = if q = 7 then s.readReg 7 - 1 else s.readReg q := by
  simp only [State.decSp, State.readReg_writeReg, State.sp, eq_comm]

theorem State.readReg_incSp (s : State) (q : Fin 8) :
    s.incSp.readReg q = if q = 7 then s.readReg 7 + 1 else s.readReg q := by
  simp only [State.incSp, State.readReg_writeReg, State.sp, eq_comm]

/-- A push stores at SP - 1 (R24, R54). -/
theorem State.pushAddr_eq (s : State) : s.pushAddr = s.readReg 7 - 1 := by
  simp [State.pushAddr, State.sp, State.readReg_decSp]

@[simp] theorem State.readMem_decSp (s : State) (b : Byte) : s.decSp.readMem b = s.readMem b := rfl
@[simp] theorem State.readMem_incSp (s : State) (b : Byte) : s.incSp.readMem b = s.readMem b := rfl

/-! ### The generic advance -/

/-- The generic advance changes nothing but pc. -/
theorem State.genericAdvance_eq (s : State) (op : Byte) :
    s.genericAdvance op = s.setPc (if setsPc op then s.pc else nextAddr op s.pc) := by
  unfold State.genericAdvance
  split <;> simp [State.setPc]

/-! ### Operand checks -/

theorem regIndex?_of_lt {o : Byte} (h : o.toNat < 8) : regIndex? o = some ⟨o.toNat, h⟩ := by
  simp [regIndex?, h]

theorem regIndex?_of_ge {o : Byte} (h : 8 ≤ o.toNat) : regIndex? o = none := by
  simp [regIndex?, Nat.not_lt.2 h]

/-- A register operand of 0 to 7 passes the check. -/
theorem withReg_of_lt {s : State} {o : Byte} {f : Fin 8 → Result} (h : o.toNat < 8) :
    withReg s o f = f ⟨o.toNat, h⟩ := by
  simp [withReg, regIndex?_of_lt h]

/-- A register operand of 8 to 255 raises IllegalRegister (R206). -/
theorem withReg_of_ge {s : State} {o : Byte} {f : Fin 8 → Result} (h : 8 ≤ o.toNat) :
    withReg s o f = .next (s.raiseFault .illegalRegister) := by
  simp [withReg, regIndex?_of_ge h]

theorem withRegs_of_lt {s : State} {o1 o2 : Byte} {f : Fin 8 → Fin 8 → Result} (h1 : o1.toNat < 8) (h2 : o2.toNat < 8) :
    withRegs s o1 o2 f = f ⟨o1.toNat, h1⟩ ⟨o2.toNat, h2⟩ := by
  simp [withRegs, withReg_of_lt h1, withReg_of_lt h2]

theorem withRegs_of_ge {s : State} {o1 o2 : Byte} {f : Fin 8 → Fin 8 → Result} (h : 8 ≤ o1.toNat ∨ 8 ≤ o2.toNat) :
    withRegs s o1 o2 f = .next (s.raiseFault .illegalRegister) := by
  by_cases h1 : o1.toNat < 8
  · have h2 : 8 ≤ o2.toNat := by omega
    simp [withRegs, withReg_of_lt h1, withReg_of_ge h2]
  · simp [withRegs, withReg_of_ge (Nat.not_lt.1 h1)]

/-- Everything a one-register instruction can do. -/
theorem withReg_cases {s t : State} {o : Byte} {f : Fin 8 → Result} (h : withReg s o f = .next t) :
    (∃ hlt : o.toNat < 8, f ⟨o.toNat, hlt⟩ = .next t) ∨ (8 ≤ o.toNat ∧ t = s.raiseFault .illegalRegister) := by
  by_cases hlt : o.toNat < 8
  · exact .inl ⟨hlt, (withReg_of_lt hlt).symm.trans h⟩
  · rw [withReg_of_ge (Nat.not_lt.1 hlt)] at h
    cases h
    exact .inr ⟨Nat.not_lt.1 hlt, rfl⟩

/-- Everything a two-register instruction can do. -/
theorem withRegs_cases {s t : State} {o1 o2 : Byte} {f : Fin 8 → Fin 8 → Result} (h : withRegs s o1 o2 f = .next t) :
    (∃ (h1 : o1.toNat < 8) (h2 : o2.toNat < 8), f ⟨o1.toNat, h1⟩ ⟨o2.toNat, h2⟩ = .next t) ∨
      ((8 ≤ o1.toNat ∨ 8 ≤ o2.toNat) ∧ t = s.raiseFault .illegalRegister) := by
  by_cases hb : 8 ≤ o1.toNat ∨ 8 ≤ o2.toNat
  · rw [withRegs_of_ge hb] at h
    cases h
    exact .inr ⟨hb, rfl⟩
  · have h1 : o1.toNat < 8 := by omega
    have h2 : o2.toNat < 8 := by omega
    exact .inl ⟨h1, h2, (withRegs_of_lt h1 h2).symm.trans h⟩

/-! ### The step -/

/-- Everything a step that answers a next state can be: the core was running, and either the bytes at pc decode and the
decoded instruction ran, or they do not and the unknown-opcode rule applied. -/
theorem step_cases {s t : State} (h : step s = .next t) :
    s.run = .running ∧
      ((∃ i, decode s.fetchOp s.fetchO1 s.fetchO2 = .ok i ∧ exec i s = .next t) ∨
        (∃ e, decode s.fetchOp s.fetchO1 s.fetchO2 = .error e ∧ execUnknownOpcode s.fetchOp s = .next t)) := by
  unfold step at h
  split at h
  · exact absurd h (by simp [stepWhenHalted])
  · exact absurd h (by simp [stepWhenFaulted])
  · rename_i hrun
    refine ⟨hrun, ?_⟩
    split at h
    · rename_i i hd
      exact .inl ⟨i, hd, h⟩
    · rename_i e hd
      exact .inr ⟨e, hd, h⟩

end Sys2Proof.Machine
end

