-- ==== Sys2Proof/Laws/Exec.lean ====
section
/-! SUPPORT. One equation per instruction and operand range: the state each meaning answers, in terms of the shared
operations, so that no later proof unfolds a meaning. -/

namespace Sys2Proof.Machine

/-- An instruction with sets_pc = 0 ends by moving pc past its own bytes (R81). -/
theorem State.advance_of_not_placesPc (s : State) {m : Mnemonic} (h : m.placesPc = false) :
    s.genericAdvance (Config.opcodeValue m) = s.setPc (s.pc + BitVec.ofNat 8 m.format.length) := by
  simp [genericAdvance_opcodeValue, h]

theorem execLdi_of_lt (s : State) {o : Byte} (imm : Byte) (h : o.toNat < 8) :
    exec (.ldi o imm) s = .next ((s.writeReg ⟨o.toNat, h⟩ imm).setPc (s.pc + 3)) := by
  simp only [exec, execLdi, withReg_of_lt h, State.advance_of_not_placesPc _ (m := .ldi) rfl]
  rfl

theorem execLdi_of_ge (s : State) {o : Byte} (imm : Byte) (h : 8 ≤ o.toNat) :
    exec (.ldi o imm) s = .next (s.raiseFault .illegalRegister) :=
  withReg_of_ge h

theorem execPrn_of_lt (s : State) {o : Byte} (h : o.toNat < 8) :
    exec (.prn o) s = .next ((s.output (s.readReg ⟨o.toNat, h⟩)).setPc (s.pc + 2)) := by
  simp only [exec, execPrn, withReg_of_lt h, State.advance_of_not_placesPc _ (m := .prn) rfl]
  rfl

theorem execPrn_of_ge (s : State) {o : Byte} (h : 8 ≤ o.toNat) :
    exec (.prn o) s = .next (s.raiseFault .illegalRegister) :=
  withReg_of_ge h

theorem execPush_of_lt (s : State) {o : Byte} (h : o.toNat < 8) :
    exec (.push o) s = .next ((s.decSp.storeTop (s.decSp.readReg ⟨o.toNat, h⟩)).setPc (s.pc + 2)) := by
  simp only [exec, execPush, withReg_of_lt h, State.advance_of_not_placesPc _ (m := .push) rfl]
  rfl

theorem execPush_of_ge (s : State) {o : Byte} (h : 8 ≤ o.toNat) :
    exec (.push o) s = .next (s.raiseFault .illegalRegister) :=
  withReg_of_ge h

theorem execPop_of_lt (s : State) {o : Byte} (h : o.toNat < 8) :
    exec (.pop o) s = .next ((s.writeReg ⟨o.toNat, h⟩ s.loadTop).incSp.setPc (s.pc + 2)) := by
  simp only [exec, execPop, withReg_of_lt h, State.advance_of_not_placesPc _ (m := .pop) rfl]
  rfl

theorem execPop_of_ge (s : State) {o : Byte} (h : 8 ≤ o.toNat) :
    exec (.pop o) s = .next (s.raiseFault .illegalRegister) :=
  withReg_of_ge h

theorem execCall_of_lt (s : State) {o : Byte} (h : o.toNat < 8) :
    exec (.call o) s = .next ((s.decSp.storeTop (s.pc + 2)).setPc ((s.decSp.storeTop (s.pc + 2)).readReg ⟨o.toNat, h⟩)) := by
  simp only [exec, execCall, withReg_of_lt h]
  rfl

theorem execCall_of_ge (s : State) {o : Byte} (h : 8 ≤ o.toNat) :
    exec (.call o) s = .next (s.raiseFault .illegalRegister) :=
  withReg_of_ge h

theorem execJmp_of_lt (s : State) {o : Byte} (h : o.toNat < 8) :
    exec (.jmp o) s = .next (s.setPc (s.readReg ⟨o.toNat, h⟩)) :=
  withReg_of_lt h

theorem execJmp_of_ge (s : State) {o : Byte} (h : 8 ≤ o.toNat) :
    exec (.jmp o) s = .next (s.raiseFault .illegalRegister) :=
  withReg_of_ge h

theorem execJeq_of_lt (s : State) {o : Byte} (h : o.toNat < 8) :
    exec (.jeq o) s = .next (s.setPc (if condEq s.fl then s.readReg ⟨o.toNat, h⟩ else s.pc + 2)) :=
  withReg_of_lt h

theorem execJeq_of_ge (s : State) {o : Byte} (h : 8 ≤ o.toNat) :
    exec (.jeq o) s = .next (s.raiseFault .illegalRegister) :=
  withReg_of_ge h

theorem execJne_of_lt (s : State) {o : Byte} (h : o.toNat < 8) :
    exec (.jne o) s = .next (s.setPc (if condNe s.fl then s.readReg ⟨o.toNat, h⟩ else s.pc + 2)) :=
  withReg_of_lt h

theorem execJne_of_ge (s : State) {o : Byte} (h : 8 ≤ o.toNat) :
    exec (.jne o) s = .next (s.raiseFault .illegalRegister) :=
  withReg_of_ge h

theorem execJgt_of_lt (s : State) {o : Byte} (h : o.toNat < 8) :
    exec (.jgt o) s = .next (s.setPc (if condGt s.fl then s.readReg ⟨o.toNat, h⟩ else s.pc + 2)) :=
  withReg_of_lt h

theorem execJgt_of_ge (s : State) {o : Byte} (h : 8 ≤ o.toNat) :
    exec (.jgt o) s = .next (s.raiseFault .illegalRegister) :=
  withReg_of_ge h

theorem execJlt_of_lt (s : State) {o : Byte} (h : o.toNat < 8) :
    exec (.jlt o) s = .next (s.setPc (if condLt s.fl then s.readReg ⟨o.toNat, h⟩ else s.pc + 2)) :=
  withReg_of_lt h

theorem execJlt_of_ge (s : State) {o : Byte} (h : 8 ≤ o.toNat) :
    exec (.jlt o) s = .next (s.raiseFault .illegalRegister) :=
  withReg_of_ge h

theorem execJge_of_lt (s : State) {o : Byte} (h : o.toNat < 8) :
    exec (.jge o) s = .next (s.setPc (if condGe s.fl then s.readReg ⟨o.toNat, h⟩ else s.pc + 2)) :=
  withReg_of_lt h

theorem execJge_of_ge (s : State) {o : Byte} (h : 8 ≤ o.toNat) :
    exec (.jge o) s = .next (s.raiseFault .illegalRegister) :=
  withReg_of_ge h

theorem execJle_of_lt (s : State) {o : Byte} (h : o.toNat < 8) :
    exec (.jle o) s = .next (s.setPc (if condLe s.fl then s.readReg ⟨o.toNat, h⟩ else s.pc + 2)) :=
  withReg_of_lt h

theorem execJle_of_ge (s : State) {o : Byte} (h : 8 ≤ o.toNat) :
    exec (.jle o) s = .next (s.raiseFault .illegalRegister) :=
  withReg_of_ge h

theorem execMul_of_lt (s : State) {o1 o2 : Byte} (h1 : o1.toNat < 8) (h2 : o2.toNat < 8) :
    exec (.mul o1 o2) s = .next ((s.writeReg ⟨o1.toNat, h1⟩ (aluMul (s.readReg ⟨o1.toNat, h1⟩) (s.readReg ⟨o2.toNat, h2⟩))).setPc
        (s.pc + 3)) := by
  simp only [exec, execMul, withRegs_of_lt h1 h2, State.advance_of_not_placesPc _ (m := .mul) rfl]
  rfl

theorem execMul_of_ge (s : State) {o1 o2 : Byte} (h : 8 ≤ o1.toNat ∨ 8 ≤ o2.toNat) :
    exec (.mul o1 o2) s = .next (s.raiseFault .illegalRegister) :=
  withRegs_of_ge h

theorem execAdd_of_lt (s : State) {o1 o2 : Byte} (h1 : o1.toNat < 8) (h2 : o2.toNat < 8) :
    exec (.add o1 o2) s = .next ((s.writeReg ⟨o1.toNat, h1⟩ (aluAdd (s.readReg ⟨o1.toNat, h1⟩) (s.readReg ⟨o2.toNat, h2⟩))).setPc
        (s.pc + 3)) := by
  simp only [exec, execAdd, withRegs_of_lt h1 h2, State.advance_of_not_placesPc _ (m := .add) rfl]
  rfl

theorem execAdd_of_ge (s : State) {o1 o2 : Byte} (h : 8 ≤ o1.toNat ∨ 8 ≤ o2.toNat) :
    exec (.add o1 o2) s = .next (s.raiseFault .illegalRegister) :=
  withRegs_of_ge h

theorem execCmp_of_lt (s : State) {o1 o2 : Byte} (h1 : o1.toNat < 8) (h2 : o2.toNat < 8) :
    exec (.cmp o1 o2) s = .next ((s.setFl (cmpFlags s.cfg.cmpFlags s.fl
        (cmpBit (s.readReg ⟨o1.toNat, h1⟩) (s.readReg ⟨o2.toNat, h2⟩)))).setPc
        (s.pc + 3)) := by
  simp only [exec, execCmp, withRegs_of_lt h1 h2, State.advance_of_not_placesPc _ (m := .cmp) rfl]
  rfl

theorem execCmp_of_ge (s : State) {o1 o2 : Byte} (h : 8 ≤ o1.toNat ∨ 8 ≤ o2.toNat) :
    exec (.cmp o1 o2) s = .next (s.raiseFault .illegalRegister) :=
  withRegs_of_ge h

theorem execHlt_eq (s : State) : exec .hlt s = .next (s.halt.setPc (s.pc + 1)) := by
  simp only [exec, execHlt, State.advance_of_not_placesPc _ (m := .hlt) rfl]
  rfl

theorem execRet_eq (s : State) : exec .ret s = .next (s.setPc s.loadTop).incSp := rfl

/-! ### Everything an instruction can do -/

/-- An instruction with a register operand of 8 to 255 raises IllegalRegister and does nothing else (R203, R206). -/
theorem exec_of_illFormed (s : State) {i : Instr} (hw : i.wellFormed = false) :
    exec i s = .next (s.raiseFault .illegalRegister) := by
  cases i <;>
    simp only [Instr.wellFormed, Instr.regOperands, regOperandOk, List.all_cons, List.all_nil, Bool.and_true,
      decide_eq_false_iff_not, Bool.and_eq_false_iff, Nat.not_lt, reduceCtorEq] at hw
  case ldi => exact execLdi_of_ge s _ hw
  case prn => exact execPrn_of_ge s hw
  case push => exact execPush_of_ge s hw
  case pop => exact execPop_of_ge s hw
  case call => exact execCall_of_ge s hw
  case jmp => exact execJmp_of_ge s hw
  case jeq => exact execJeq_of_ge s hw
  case jne => exact execJne_of_ge s hw
  case jgt => exact execJgt_of_ge s hw
  case jlt => exact execJlt_of_ge s hw
  case jle => exact execJle_of_ge s hw
  case jge => exact execJge_of_ge s hw
  case add => exact execAdd_of_ge s hw
  case mul => exact execMul_of_ge s hw
  case cmp => exact execCmp_of_ge s hw

/-- The effect of a well-formed instruction in terms of the shared operations. -/
def Effect (i : Instr) (s t : State) : Prop :=
  match i with
  | .hlt => t = s.halt.setPc (s.pc + 1)
  | .ldi o imm => ∃ h : o.toNat < 8, t = (s.writeReg ⟨o.toNat, h⟩ imm).setPc (s.pc + 3)
  | .prn o => ∃ h : o.toNat < 8, t = (s.output (s.readReg ⟨o.toNat, h⟩)).setPc (s.pc + 2)
  | .push o => ∃ h : o.toNat < 8, t = (s.decSp.storeTop (s.decSp.readReg ⟨o.toNat, h⟩)).setPc (s.pc + 2)
  | .pop o => ∃ h : o.toNat < 8, t = (s.writeReg ⟨o.toNat, h⟩ s.loadTop).incSp.setPc (s.pc + 2)
  | .call o => ∃ h : o.toNat < 8,
      t = (s.decSp.storeTop (s.pc + 2)).setPc ((s.decSp.storeTop (s.pc + 2)).readReg ⟨o.toNat, h⟩)
  | .ret => t = (s.setPc s.loadTop).incSp
  | .jmp _ | .jeq _ | .jne _ | .jgt _ | .jlt _ | .jle _ | .jge _ => ∃ p, t = s.setPc p
  | .add o1 o2 => ∃ (h1 : o1.toNat < 8) (h2 : o2.toNat < 8),
      t = (s.writeReg ⟨o1.toNat, h1⟩ (aluAdd (s.readReg ⟨o1.toNat, h1⟩) (s.readReg ⟨o2.toNat, h2⟩))).setPc (s.pc + 3)
  | .mul o1 o2 => ∃ (h1 : o1.toNat < 8) (h2 : o2.toNat < 8),
      t = (s.writeReg ⟨o1.toNat, h1⟩ (aluMul (s.readReg ⟨o1.toNat, h1⟩) (s.readReg ⟨o2.toNat, h2⟩))).setPc (s.pc + 3)
  | .cmp o1 o2 => ∃ (h1 : o1.toNat < 8) (h2 : o2.toNat < 8),
      t = (s.setFl (cmpFlags s.cfg.cmpFlags s.fl
        (cmpBit (s.readReg ⟨o1.toNat, h1⟩) (s.readReg ⟨o2.toNat, h2⟩)))).setPc (s.pc + 3)

/-- A well-formed instruction has its effect. -/
theorem exec_effect {i : Instr} {s t : State} (hw : i.wellFormed = true) (h : exec i s = .next t) : Effect i s t := by
  cases i <;>
    simp only [Instr.wellFormed, Instr.regOperands, regOperandOk, List.all_cons, List.all_nil, Bool.and_true,
      decide_eq_true_eq, Bool.and_eq_true] at hw
  case hlt => rw [execHlt_eq] at h; cases h; rfl
  case ret => rw [execRet_eq] at h; cases h; rfl
  case ldi => rw [execLdi_of_lt s _ hw] at h; cases h; exact ⟨hw, rfl⟩
  case prn => rw [execPrn_of_lt s hw] at h; cases h; exact ⟨hw, rfl⟩
  case push => rw [execPush_of_lt s hw] at h; cases h; exact ⟨hw, rfl⟩
  case pop => rw [execPop_of_lt s hw] at h; cases h; exact ⟨hw, rfl⟩
  case call => rw [execCall_of_lt s hw] at h; cases h; exact ⟨hw, rfl⟩
  case jmp => rw [execJmp_of_lt s hw] at h; cases h; exact ⟨_, rfl⟩
  case jeq => rw [execJeq_of_lt s hw] at h; cases h; exact ⟨_, rfl⟩
  case jne => rw [execJne_of_lt s hw] at h; cases h; exact ⟨_, rfl⟩
  case jgt => rw [execJgt_of_lt s hw] at h; cases h; exact ⟨_, rfl⟩
  case jlt => rw [execJlt_of_lt s hw] at h; cases h; exact ⟨_, rfl⟩
  case jle => rw [execJle_of_lt s hw] at h; cases h; exact ⟨_, rfl⟩
  case jge => rw [execJge_of_lt s hw] at h; cases h; exact ⟨_, rfl⟩
  case add => rw [execAdd_of_lt s hw.1 hw.2] at h; cases h; exact ⟨hw.1, hw.2, rfl⟩
  case mul => rw [execMul_of_lt s hw.1 hw.2] at h; cases h; exact ⟨hw.1, hw.2, rfl⟩
  case cmp => rw [execCmp_of_lt s hw.1 hw.2] at h; cases h; exact ⟨hw.1, hw.2, rfl⟩

/-- Everything an instruction can do: its effect, or the fault of a bad register operand. -/
theorem exec_cases {i : Instr} {s t : State} (h : exec i s = .next t) :
    (i.wellFormed = true ∧ Effect i s t) ∨ (i.wellFormed = false ∧ t = s.raiseFault .illegalRegister) := by
  cases hw : i.wellFormed
  · rw [exec_of_illFormed s hw] at h
    cases h
    exact .inr ⟨rfl, rfl⟩
  · exact .inl ⟨rfl, exec_effect hw h⟩

/-- Everything a byte that is no opcode can do (R82). -/
theorem execUnknownOpcode_cases {op : Byte} {s t : State} (h : execUnknownOpcode op s = .next t) :
    (s.cfg.unknownOpcode = .strict ∧ t = s.raiseFault .illegalOpcode) ∨
      (s.cfg.unknownOpcode = .permissive ∧ t = s.setPc (if setsPc op then s.pc else nextAddr op s.pc)) := by
  unfold execUnknownOpcode at h
  split at h
  · rename_i hs
    cases h
    exact .inl ⟨hs, rfl⟩
  · rename_i hs
    rw [State.genericAdvance_eq] at h
    cases h
    exact .inr ⟨hs, rfl⟩

end Sys2Proof.Machine
end

