-- ==== Sys2Proof/Laws/PerInstr.lean ====
section
/-! SUPPORT. Statements made per instruction. Family `Layout`: the fields of the opcode byte agree with the instruction's
format, with the way it is computed, and with the length of its encoding (spec 30_encoding.md R70, R71, R73, R77). -/

namespace Sys2Proof.Laws.Layout

/-- The length of the encoding is operand_count + 1 and the format's length, `alu` marks the ALU operations and
`sets_pc` the control transfers. -/
def Statement (i : Instr) : Prop :=
  (encode i).length = instrLength (Config.opcodeValue i.mnemonic) ∧
    (encode i).length = i.mnemonic.format.length ∧
    isAlu (Config.opcodeValue i.mnemonic) = i.mnemonic.usesAlu ∧
    setsPc (Config.opcodeValue i.mnemonic) = i.mnemonic.placesPc

/-- The length is the only point that depends on the operands. -/
theorem of_length {i : Instr} (h : (encode i).length = i.mnemonic.format.length) : Statement i :=
  ⟨h.trans (instrLength_opcodeValue _).symm, h, isAlu_opcodeValue _, setsPc_opcodeValue _⟩

theorem hlt : Statement .hlt := of_length rfl
theorem ldi (reg imm : Byte) : Statement (.ldi reg imm) := of_length rfl
theorem prn (reg : Byte) : Statement (.prn reg) := of_length rfl
theorem push (reg : Byte) : Statement (.push reg) := of_length rfl
theorem pop (reg : Byte) : Statement (.pop reg) := of_length rfl
theorem call (reg : Byte) : Statement (.call reg) := of_length rfl
theorem ret : Statement .ret := of_length rfl
theorem jmp (reg : Byte) : Statement (.jmp reg) := of_length rfl
theorem jeq (reg : Byte) : Statement (.jeq reg) := of_length rfl
theorem jne (reg : Byte) : Statement (.jne reg) := of_length rfl
theorem jgt (reg : Byte) : Statement (.jgt reg) := of_length rfl
theorem jlt (reg : Byte) : Statement (.jlt reg) := of_length rfl
theorem jle (reg : Byte) : Statement (.jle reg) := of_length rfl
theorem jge (reg : Byte) : Statement (.jge reg) := of_length rfl
theorem add (regA regB : Byte) : Statement (.add regA regB) := of_length rfl
theorem mul (regA regB : Byte) : Statement (.mul regA regB) := of_length rfl
theorem cmp (regA regB : Byte) : Statement (.cmp regA regB) := of_length rfl

end Sys2Proof.Laws.Layout
end

