-- ==== Sys2Proof/Tests/Slice0.lean ====
section
/-! SUPPORT. The model's own tests. Expected values come from the spec: encodings from the opcode table (30_encoding.md
R77), effects from the vectors of 95_test_vectors.md, whose numbers (S-1, D-1, ...) the comments give. The second half holds
one witness for each statement that has hypotheses. -/

namespace Sys2Proof.Tests

open Sys2Proof Sys2Proof.Machine Sys2Proof.Stmt

/-- A running state after reset with `code` at `pc`, some registers and FL set. -/
def st (pc : Byte) (code : List Byte) (regs : List (Fin 8 × Byte) := []) (fl : Byte := 0) : State :=
  { regs.foldl (fun t p => t.writeReg p.1 p.2) (State.reset.writeBytes pc code) with pc := pc, fl := fl }

/-- The same state under the other value of each parameter. -/
def st' (pc : Byte) (code : List Byte) (regs : List (Fin 8 × Byte) := []) (fl : Byte := 0) : State :=
  { st pc code regs fl with cfg := { unknownOpcode := .permissive, cmpFlags := .orIn } }

/-- What a next state shows. -/
def got {α : Type} (r : Result) (f : State → α) : Option α :=
  match r with
  | .next t => some (f t)
  | .fault _ => none
  | .refused _ => none

/-- The cause of a fault the state has entered. -/
def cause (s : State) : Option Cause :=
  match s.run with
  | .faulted r => some r.cause
  | .running => none
  | .halted => none

/-! ### Well-formedness: an ill-formed term for each check -/

theorem test_illFormed_ldi : (Instr.ldi 8 0).wellFormed = false := by decide
theorem test_illFormed_prn : (Instr.prn 255).wellFormed = false := by decide
theorem test_illFormed_push : (Instr.push 8).wellFormed = false := by decide
theorem test_illFormed_pop : (Instr.pop 8).wellFormed = false := by decide
theorem test_illFormed_call : (Instr.call 16).wellFormed = false := by decide
theorem test_illFormed_jumps :
    [Instr.jmp 8, .jeq 8, .jne 8, .jgt 8, .jlt 8, .jle 8, .jge 8].all (fun i => !i.wellFormed) = true := by decide
theorem test_illFormed_regA : [Instr.add 8 0, .mul 8 0, .cmp 8 0].all (fun i => !i.wellFormed) = true := by decide
theorem test_illFormed_regB : [Instr.add 0 8, .mul 0 8, .cmp 0 8].all (fun i => !i.wellFormed) = true := by decide
theorem test_wellFormed_anyImmediate : (Instr.ldi 7 255).wellFormed = true := by decide

/-! ### Decoding: one word for every constructor, from the table's `encoding` column -/

theorem test_decode_hlt : decode 0b00000001 0xAA 0xBB = .ok .hlt := by decide
theorem test_decode_ldi : decode 0b10000010 0b00000101 0b11111111 = .ok (.ldi 5 255) := by decide
theorem test_decode_prn : decode 0b01000111 0b00000010 0xBB = .ok (.prn 2) := by decide
theorem test_decode_push : decode 0b01000101 0b00000111 0xBB = .ok (.push 7) := by decide
theorem test_decode_pop : decode 0b01000110 0b00000001 0xBB = .ok (.pop 1) := by decide
theorem test_decode_call : decode 0b01010000 0b00000001 0xBB = .ok (.call 1) := by decide
theorem test_decode_ret : decode 0b00010001 0xAA 0xBB = .ok .ret := by decide
theorem test_decode_jmp : decode 0b01010100 0b00000010 0xBB = .ok (.jmp 2) := by decide
theorem test_decode_jeq : decode 0b01010101 0b00000011 0xBB = .ok (.jeq 3) := by decide
theorem test_decode_jne : decode 0b01010110 0b00000011 0xBB = .ok (.jne 3) := by decide
theorem test_decode_jgt : decode 0b01010111 0b00000011 0xBB = .ok (.jgt 3) := by decide
theorem test_decode_jlt : decode 0b01011000 0b00000011 0xBB = .ok (.jlt 3) := by decide
theorem test_decode_jle : decode 0b01011001 0b00000011 0xBB = .ok (.jle 3) := by decide
theorem test_decode_jge : decode 0b01011010 0b00000011 0xBB = .ok (.jge 3) := by decide
theorem test_decode_add : decode 0b10100000 0b00000001 0b00000010 = .ok (.add 1 2) := by decide
theorem test_decode_mul : decode 0b10100010 0b00000001 0b00000010 = .ok (.mul 1 2) := by decide
theorem test_decode_cmp : decode 0b10100111 0b00000001 0b00000010 = .ok (.cmp 1 2) := by decide
theorem test_decode_zero_is_unknown : decode 0b00000000 0 0 = .error (.unknownOpcode 0) := by decide
theorem test_decodeBytes_truncated : decodeBytes [0x82, 0x00] = .error .truncated := by decide

/-! ### One step, against the spec's vectors -/

/-- S-7: operands wrap from 0xFE to 0x00. -/
theorem test_ldi_wraps :
    got (step (st 0xFE [0x82, 0x03, 0x2A])) (fun t => (t.readReg 3, t.pc)) = some (0x2A, 0x01) := by decide
/-- D-4: an index of 8 faults and writes nothing. -/
theorem test_ldi_badRegister :
    got (step (st 0 [0x82, 0x08, 0x01])) (fun t => (cause t, t.regs == State.reset.regs, t.pc)) =
      some (some .illegalRegister, true, 0) := by decide
/-- D-8. -/
theorem test_prn_r7 : got (step (st 9 [0x47, 0x07])) (fun t => (t.out, t.pc)) = some ([244], 0x0B) := by decide
/-- S-8: PRN at 0xFF takes its operand from 0x00. -/
theorem test_prn_badRegister :
    got (step (st 0xFF [0x47, 0x82])) (fun t => (cause t, t.out, t.pc)) = some (some .illegalRegister, [], 0xFF) := by
  decide
/-- D-10: HLT at 0xFF. -/
theorem test_hlt_wraps : got (step (st 0xFF [0x01])) (fun t => (t.run, t.pc)) = some (.halted, 0x00) := by decide
/-- K-2. -/
theorem test_push_wraps :
    got (step (st 0x20 [0x45, 0x01] [(7, 0x00), (1, 9)])) (fun t => (t.sp, t.readMem 0xFF)) = some (0xFF, 9) := by
  decide
/-- K-3. -/
theorem test_push_r7 :
    got (step (st 0 [0x45, 0x07])) (fun t => (t.sp, t.readMem 0xF3)) = some (0xF3, 0xF3) := by decide
/-- K-5. -/
theorem test_pop_wraps :
    got (step ((st 0x20 [0x46, 0x02] [(7, 0xFF)]).writeMem 0xFF 7)) (fun t => (t.readReg 2, t.sp)) = some (7, 0x00) := by
  decide
/-- K-7. -/
theorem test_pop_r7 :
    got (step ((st 0 [0x46, 0x07] [(7, 0xF0)]).writeMem 0xF0 0x33)) (fun t => t.readReg 7) = some 0x34 := by decide
/-- J-2: CALL at 0xFF pushes 0x01. -/
theorem test_call_wraps :
    got (step (st 0xFF [0x50, 0x01] [(1, 0x40)])) (fun t => (t.readMem 0xF3, t.pc)) = some (0x01, 0x40) := by decide
/-- J-3: the target of CALL R7 is read after the push. -/
theorem test_call_r7 :
    got (step (st 0x04 [0x50, 0x07])) (fun t => (t.sp, t.readMem 0xF3, t.pc)) = some (0xF3, 0x06, 0xF3) := by decide
/-- J-4. -/
theorem test_ret :
    got (step ((st 0x20 [0x11] [(7, 0xF3)]).writeMem 0xF3 0x06)) (fun t => (t.pc, t.sp)) = some (0x06, 0xF4) := by decide
/-- J-5. -/
theorem test_ret_wraps :
    got (step ((st 0x20 [0x11] [(7, 0xFF)]).writeMem 0xFF 0x10)) (fun t => (t.pc, t.sp)) = some (0x10, 0x00) := by decide
/-- J-6. -/
theorem test_jmp : got (step (st 0 [0x54, 0x02] [(2, 0x10)])) (·.pc) = some 0x10 := by decide
/-- J-9. -/
theorem test_jmp_badRegister : got (step (st 0 [0x54, 0x09])) cause = some (some .illegalRegister) := by decide

/-- One column of the truth table of 2.4: the pc after the jump `op` at 0x08 with R3 = 0x30, for FL = 000 to 111. -/
def truthColumn (op : Byte) : List (Option Byte) :=
  ([0, 1, 2, 3, 4, 5, 6, 7] : List Byte).map fun fl => got (step (st 0x08 [op, 0x03] [(3, 0x30)] fl)) (·.pc)

theorem test_jeq_truth : truthColumn 0x55 = [0x0A, 0x30, 0x0A, 0x30, 0x0A, 0x30, 0x0A, 0x30].map some := by decide
theorem test_jne_truth : truthColumn 0x56 = [0x30, 0x0A, 0x30, 0x0A, 0x30, 0x0A, 0x30, 0x0A].map some := by decide
theorem test_jgt_truth : truthColumn 0x57 = [0x0A, 0x0A, 0x0A, 0x0A, 0x30, 0x30, 0x30, 0x30].map some := by decide
theorem test_jlt_truth : truthColumn 0x58 = [0x0A, 0x0A, 0x30, 0x30, 0x0A, 0x0A, 0x30, 0x30].map some := by decide
theorem test_jle_truth : truthColumn 0x59 = [0x0A, 0x30, 0x30, 0x30, 0x0A, 0x30, 0x30, 0x30].map some := by decide
theorem test_jge_truth : truthColumn 0x5A = [0x0A, 0x30, 0x0A, 0x30, 0x30, 0x30, 0x30, 0x30].map some := by decide
/-- J-8: a jump at 0xFE that is not taken. -/
theorem test_jeq_wraps : got (step (st 0xFE [0x55, 0x03])) (·.pc) = some 0x00 := by decide
/-- J-10: the register is checked though the jump would not be taken. -/
theorem test_jne_badRegister_notTaken :
    got (step (st 0x08 [0x56, 0x09] [] 0b001)) cause = some (some .illegalRegister) := by decide
/-- A-3. -/
theorem test_mul_wraps :
    got (step (st 0 [0xA2, 0x00, 0x01] [(0, 255), (1, 255)])) (fun t => (t.readReg 0, t.readReg 1, t.pc)) =
      some (1, 255, 3) := by decide
/-- A-21: the second operand is checked too. -/
theorem test_mul_badRegB : got (step (st 0 [0xA2, 0x00, 0x08])) cause = some (some .illegalRegister) := by decide
/-- A-8, with FL set before: ADD leaves it. -/
theorem test_add_wraps :
    got (step (st 0 [0xA0, 0x00, 0x01] [(0, 200), (1, 100)] 0b100)) (fun t => (t.readReg 0, t.fl)) =
      some (44, 0b100) := by decide
/-- A-12: source and destination are one register. -/
theorem test_add_sameRegister :
    got (step (st 0 [0xA0, 0x01, 0x01] [(1, 200)])) (fun t => t.readReg 1) = some 144 := by decide
/-- A-16: the comparison is unsigned. -/
theorem test_cmp_unsigned :
    got (step (st 0 [0xA7, 0x00, 0x01] [(0, 0x80), (1, 0x7F)])) (fun t => (t.fl, t.pc)) = some (0b100, 3) := by decide
/-- A-19 and A-20: the two policies. -/
theorem test_cmp_policies :
    got (step (st 0 [0xA7, 0x00, 0x01] [(0, 3), (1, 5)] 0b100)) (·.fl) = some 0b010 ∧
    got (step (st' 0 [0xA7, 0x00, 0x01] [(0, 3), (1, 5)] 0b100)) (·.fl) = some 0b110 := by decide

/-! ### Unknown opcodes, reset, load, text -/

/-- S-1. -/
theorem test_unknown_strict :
    got (step State.reset) (fun t => (t.run, t.pc)) =
      some (.faulted { cause := .illegalOpcode, addr := 0, op := 0, o1 := 0, o2 := 0 }, 0) := by decide
/-- S-2, S-3, S-4, S-5, S-6. -/
theorem test_unknown_permissive :
    ([(0x00, 0x00), (0x20, 0x10), (0x20, 0xC0), (0x20, 0x20), (0x20, 0xA1)] : List (Byte × Byte)).map
      (fun p => got (step (st' p.1 [p.2])) (·.pc)) = [0x01, 0x20, 0x24, 0x21, 0x23].map some := by decide
/-- P6: the record of a bad register operand. -/
theorem test_fault_record :
    got (step (st 0 [0x82, 0x09, 0x01])) (·.run) =
      some (.faulted { cause := .illegalRegister, addr := 0, op := 0x82, o1 := 0x09, o2 := 0x01 }) := by decide
/-- The codes of R201. -/
theorem test_cause_codes : Cause.code .illegalOpcode = 1 ∧ Cause.code .illegalRegister = 2 := by decide
/-- Z-1: reset keeps `out`. -/
theorem test_reset_keeps_out :
    State.applyReset { st 5 [0x82] [(2, 9)] 4 with out := [72], run := .halted } = { State.reset with out := [72] } := by
  decide
/-- Z-2. -/
theorem test_load :
    (match Block.init.load [0x82, 0x00, 0x05] with
      | .next b => some (b.core.mem, b.core.pc)
      | _ => none) = some ([(0, 0x82), (2, 0x05)], 0) := by decide
/-- Z-4 and R44: a halted core takes no step, and only then the host reads the state. -/
theorem test_halted_no_step :
    (match Block.step { core := { State.reset with run := .halted }, stepped := true } with
      | .fault f => some f
      | _ => none) = some Fault.halted ∧
    Block.init.stateRead = none := by decide
/-- R42: clearing `out` is the host's. -/
theorem test_clearOut :
    (Block.clearOut { core := { State.reset with out := [1] }, stepped := false }).out = [] := by decide
/-- D-6, D-7: the text of the output. -/
theorem test_outText : outText [0, 255, 72] = "0\n255\n72\n".toList := by decide
/-- L1.6: the source's own program text and its image. -/
theorem test_assemble :
    assemble "LDI R0,8; LDI R1,9; MUL R0,R1; PRN R0; HLT".toList =
      some [0x82, 0x00, 0x08, 0x82, 0x01, 0x09, 0xA2, 0x00, 0x01, 0x47, 0x00, 0x01] := by decide
/-- R84: the three number bases, and newlines. -/
theorem test_assemble_bases :
    assemble "LDI R7, 0x80\nLDI R1, 0b101\n".toList = some [0x82, 0x07, 0x80, 0x82, 0x01, 0x05] := by decide
/-- R84: an immediate above 255 and a ninth register are no program. -/
theorem test_assemble_refuses :
    assemble "LDI R0, 256".toList = none ∧ assemble "PRN R8".toList = none := by decide
/-- The first step after a word is placed at pc runs that word. -/
theorem test_withFetchWord :
    got (step (State.reset.withFetchWord 24 0b00001000_00000001_10000010)) (fun t => t.readReg 1) = some 8 := by decide
/-- An address outside 0 to 255 and a listed zero are not canonical; neither are keys out of order. -/
theorem test_memory_not_wf :
    ¬ Memory.wf [(256, 1)] ∧ ¬ Memory.wf [(3, 0)] ∧ ¬ Memory.wf [(4, 1), (3, 1)] := by decide
/-- Writing what an unlisted address reads as takes the entry off the list. -/
theorem test_memory_put_zero : Memory.put [(3, 1), (5, 2)] 3 0 = [(5, 2)] := by decide

/-! ### Witnesses: a concrete input for the hypotheses of each statement, at the boundaries of its clauses -/

/-- A register operand's last good and first bad value, and the two ends of the byte. -/
theorem witness_registerOperand :
    (0 : Byte).toNat < 8 ∧ (7 : Byte).toNat < 8 ∧ 7 < (8 : Byte).toNat ∧ 7 < (255 : Byte).toNat := by decide

theorem witness_EncodeOfDecodeIsTheBytes : decodeBytes [0x82, 0x01, 0x08, 0xFF] = .ok (.ldi 1 8, [0xFF]) := by decide
theorem witness_ExactlySeventeenOpcodesDecode : (0x5A : Byte) ∈ opcodes ∧ (0x5B : Byte) ∉ opcodes := by decide
theorem witness_UnusedOperandBytesIgnored : (0x11 : Byte) >>> 6 = 0 ∧ (0x47 : Byte) >>> 6 = 1 := by decide
theorem witness_LdiLoadsTheImmediate :
    got (exec (.ldi 7 1) State.reset) cause = some none ∧
      got (exec (.ldi 8 1) State.reset) cause = some (some .illegalRegister) := by decide
theorem witness_PrnAppendsTheRegister :
    got (exec (.prn 7) State.reset) cause = some none ∧
      got (exec (.prn 8) State.reset) cause = some (some .illegalRegister) := by decide
theorem witness_PushStoresBelowTheStackPointer :
    got (exec (.push 7) State.reset) cause = some none ∧
      got (exec (.push 8) State.reset) cause = some (some .illegalRegister) := by decide
theorem witness_PopLoadsFromTheStackPointer :
    got (exec (.pop 7) State.reset) cause = some none ∧ got (exec (.pop 6) State.reset) cause = some none ∧
      got (exec (.pop 8) State.reset) cause = some (some .illegalRegister) := by decide
theorem witness_CallPushesTheReturnAddress :
    got (exec (.call 7) State.reset) cause = some none ∧
      got (exec (.call 8) State.reset) cause = some (some .illegalRegister) := by decide
theorem witness_JmpGoesToTheRegister :
    got (exec (.jmp 7) State.reset) (·.pc) = some 0xF4 ∧
      got (exec (.jmp 8) State.reset) cause = some (some .illegalRegister) := by decide
theorem witness_ConditionalJumpsTestTheirFlags :
    ([Instr.jeq, .jne, .jgt, .jlt, .jge, .jle].map fun mk =>
      (got (exec (mk 7) State.reset) cause, got (exec (mk 8) State.reset) cause)) =
        List.replicate 6 (some none, some (some .illegalRegister)) := by decide
theorem witness_MulIsProductModulo256 :
    got (exec (.mul 7 7) State.reset) cause = some none ∧
      got (exec (.mul 7 8) State.reset) cause = some (some .illegalRegister) := by decide
theorem witness_AddIsSumModulo256 :
    got (exec (.add 7 7) State.reset) cause = some none ∧
      got (exec (.add 8 7) State.reset) cause = some (some .illegalRegister) := by decide
theorem witness_CmpSetsTheFlagOfTheOrder :
    (st 0 []).cfg.cmpFlags = .clearThenSet ∧ (st' 0 []).cfg.cmpFlags = .orIn ∧
      ([(1, 0), (0, 1), (1, 1)] : List (Byte × Byte)).map
        (fun p => got (exec (.cmp 0 1) (st 0 [] [(0, p.1), (1, p.2)])) (·.fl)) = [0b100, 0b010, 0b001].map some := by
  decide
theorem witness_MulAndAddAreSignedToo :
    got (exec (.mul 0 7) (st 0 [] [(0, 0xFF), (7, 0xFF)])) (fun t => t.readReg 0) = some 1 := by decide
theorem witness_AfterCmpExactlyOneOrderHolds :
    State.reset.cfg.cmpFlags = .clearThenSet ∧ ∃ t, exec (.cmp 7 0) State.reset = .next t ∧ t.fl = 0b100 :=
  ⟨rfl, _, rfl, by decide⟩
theorem witness_FlagsWrittenOnlyByCmp :
    (∀ a b, Instr.ldi 0 1 ≠ .cmp a b) ∧ (∃ t, exec (.ldi 0 1) State.reset = .next t) ∧
      (st 0 [0x82, 0, 1]).fetchOp ≠ 0xA7 ∧ ∃ t, step (st 0 [0x82, 0, 1]) = .next t :=
  ⟨fun _ _ h => Instr.noConfusion h, ⟨_, rfl⟩, by decide, _, rfl⟩
theorem witness_FlagsSeenOnlyByConditionalJumps :
    (∃ t, exec (.jeq 3) (st 0 [] [(3, 0x30)] 1) = .next t ∧ t.pc = 0x30) ∧ isCondJump (.jmp 3) = false :=
  ⟨⟨_, rfl, by decide⟩, rfl⟩
theorem witness_MemoryWrittenOnlyByPushAndCall :
    ∃ t, step (st 0 [0x45, 0x07]) = .next t ∧ t.readMem 0xF3 ≠ (st 0 [0x45, 0x07]).readMem 0xF3 :=
  ⟨_, rfl, by decide⟩
theorem witness_RegistersWrittenOnlyByTheirInstructions :
    (∃ t, step (st 0 [0x82, 0x07, 0x01]) = .next t ∧ t.readReg 7 ≠ (st 0 [0x82, 0x07, 0x01]).readReg 7) ∧
      ∃ t, step (st 0 [0x11]) = .next t ∧ t.readReg 7 ≠ (st 0 [0x11]).readReg 7 :=
  ⟨⟨_, rfl, by decide⟩, _, rfl, by decide⟩
theorem witness_StepKeepsTheImageWhileTheStackIsClear :
    StackClearOf 2 (st 0 [0x45, 0x07] [(7, 0x03)]) ∧ ∃ t, step (st 0 [0x45, 0x07] [(7, 0x03)]) = .next t :=
  ⟨by unfold StackClearOf; decide, _, rfl⟩
theorem witness_OutputGrowsOnlyByPrn : ∃ t, step (st 0 [0x47, 0x07]) = .next t ∧ t.out ≠ (st 0 [0x47, 0x07]).out :=
  ⟨_, rfl, by decide⟩
theorem witness_HaltedEnteredExactlyByHlt : ∃ t, step (st 0 [0x01]) = .next t ∧ t.run = .halted :=
  ⟨_, rfl, by decide⟩
theorem witness_FaultsAreWithoutEffect : ∃ t record, step (st 0 [0x82, 0x08]) = .next t ∧ t.run = .faulted record :=
  ⟨_, _, rfl, rfl⟩
theorem witness_FaultCausesAreExact :
    (st 0 []).run = .running ∧ (st 0 []).cfg.unknownOpcode = .strict ∧ (st 0 []).fetchOp ∉ opcodes ∧
      (∃ i, decode (st 0 [0xA7, 0x07, 0x08]).fetchOp 0x07 0x08 = .ok i ∧ ∃ o ∈ i.regOperands, 7 < o.toNat) :=
  ⟨rfl, rfl, by decide, _, rfl, 8, by decide, by decide⟩
theorem witness_RunningCoreAlwaysTakesAStep : State.reset.run = .running := rfl
theorem witness_StoppedCoreTakesNoStep :
    ({ State.reset with run := .halted } : State).run = .halted ∧
      ∃ record, (State.raiseFault State.reset .illegalOpcode).run = .faulted record :=
  ⟨rfl, _, rfl⟩
theorem witness_StepRunsTheDecodedInstruction :
    (st 0xFF [0x47, 0x07]).run = .running ∧
      decode ((st 0xFF [0x47, 0x07]).readMem 0xFF) ((st 0xFF [0x47, 0x07]).readMem 0x00)
        ((st 0xFF [0x47, 0x07]).readMem 0x01) = .ok (.prn 7) := by decide
theorem witness_UnknownOpcodeFollowsThePolicy :
    (st 0 [0x10]).run = .running ∧ (st 0 [0x10]).readMem 0 ∉ opcodes ∧ (st 0 [0x10]).cfg.unknownOpcode = .strict ∧
      (st' 0 [0x10]).cfg.unknownOpcode = .permissive := by decide
theorem witness_GenericAdvanceByOperandCount :
    ∃ t, step (st 0xFF [0xA2, 0, 1]) = .next t ∧ t.run = .running ∧
      (st 0xFF [0xA2, 0, 1]).fetchOp.getLsbD 4 = false ∧ t.pc = 0x02 :=
  ⟨_, rfl, by decide, by decide, by decide⟩
theorem witness_ParametersNeverChange : ∃ t, step (st' 0 [0xA7, 0, 1]) = .next t := ⟨_, rfl⟩
theorem witness_StepKeepsTheInvariant :
    (st 0 [0xA7, 0, 1] [(0, 9)] 2).Inv ∧ ∃ t, step (st 0 [0xA7, 0, 1] [(0, 9)] 2) = .next t ∧ t.fl = 4 :=
  ⟨⟨by decide, by decide, by decide, fun _ h => RunState.noConfusion h⟩, _, rfl, by decide⟩
theorem witness_EveryReachableStateMeetsTheInvariant : (List.replicate 256 (0x45 : Byte)).length ≤ 256 :=
  Nat.le_of_eq List.length_replicate
theorem witness_PushThenPopRestoresEveryRegister : (7 : Byte).toNat < 8 ∧ (6 : Byte) ≠ 7 := by decide
theorem witness_RetAfterCallResumesAfterTheCall :
    ∃ t u : State, exec (.call 7) (st 0xFE [0x50, 0x07]) = .next t ∧ u.fl ≠ t.fl ∧ u.readReg 7 = t.readReg 7 ∧
      u.readMem (t.readReg 7) = t.readMem (t.readReg 7) :=
  ⟨_, (st 0x40 [] [(7, 0xF3)] 1).writeMem 0xF3 0x00, rfl, by decide, by decide, by decide⟩
theorem witness_NextFetchSeesThePushedByte :
    let s := st 0x06 [0x45, 0x00, 0x47] [(7, 0x09), (0, 0x01)]
    s.run = .running ∧ s.fetchOp = 0x45 ∧ s.fetchO1.toNat < 7 ∧ s.readReg 7 - 1 = s.pc + 2 ∧ s.readReg 0 = 0x01 := by
  decide
theorem witness_ResetLeavesTheStatedValues : State.reset ∈ [State.reset, State.applyReset State.reset] := by decide
theorem witness_LoadPlacesTheImageOrIsRefused :
    256 < (List.replicate 257 (0 : Byte)).length ∧ (List.replicate 256 (0 : Byte)).length ≤ 256 ∧
      Block.init.fresh = true ∧ Block.fresh { core := State.reset, stepped := true } = false :=
  ⟨by rw [List.length_replicate]; omega, Nat.le_of_eq List.length_replicate, by decide, by decide⟩
theorem witness_LoadNeedsAResetAfterAStep : ∃ c, Block.init.step = .next c := ⟨_, rfl⟩
theorem witness_CanonicalMemoriesReadingAlikeAreEqual :
    Memory.wf [(0, 1), (255, 2)] ∧ ∀ a : Byte, Memory.get [(0, 1), (255, 2)] a.toNat = Memory.get [(0, 1), (255, 2)] a.toNat :=
  ⟨by decide, fun _ => rfl⟩
theorem witness_JumpToItselfNeverEnds :
    let s := st 0x30 [0x54, 0x02] [(2, 0x30)]
    s.run = .running ∧ s.fetchOp = 0x54 ∧ s.fetchO1.toNat < 8 ∧ s.readReg 2 = s.pc := by decide
theorem witness_PermissiveUnknownByteWithBitFourHangs :
    let s := st' 0x20 [0x10]
    s.run = .running ∧ s.cfg.unknownOpcode = .permissive ∧ s.fetchOp ∉ opcodes ∧ s.fetchOp.getLsbD 4 = true := by decide
theorem witness_EveryRunHasExactlyOneEnd : (stateAfter 1 (st 0 [0x01])).run ≠ .running := by decide
theorem witness_AssemblyTextReadsBack : (Instr.ldi 7 255).wellFormed = true := by decide
theorem witness_OutputTextDeterminesTheStream : outText [1, 23] = outText [1, 23] := rfl

end Sys2Proof.Tests
end

section
/-! Proofs about FL: who writes it, and where it can be seen (10_state.md R33, R34). -/

namespace Sys2Proof.Machine

open Sys2Proof.Stmt

/-! ### FL is written only by CMP -/

/-- The frame of every instruction but CMP holds FL. -/
theorem exec_fl_of_ne_cmp {i : Instr} {s t : State} (hi : ∀ a b, i ≠ .cmp a b) (h : exec i s = .next t) :
    t.fl = s.fl := by
  obtain ⟨-, effect⟩ | ⟨-, rfl⟩ := exec_cases h
  · cases i with
    | hlt | ret => obtain rfl := effect; rfl
    | ldi | prn | push | pop | call => obtain ⟨-, rfl⟩ := effect; rfl
    | jmp | jeq | jne | jgt | jlt | jle | jge => obtain ⟨p, rfl⟩ := effect; rfl
    | add | mul => obtain ⟨-, -, rfl⟩ := effect; rfl
    | cmp a b => exact absurd rfl (hi a b)
  · rfl

theorem execUnknownOpcode_fl {op : Byte} {s t : State} (h : execUnknownOpcode op s = .next t) : t.fl = s.fl := by
  obtain ⟨-, rfl⟩ | ⟨-, rfl⟩ := execUnknownOpcode_cases h <;> rfl

/-- A step whose opcode byte is not CMP's runs another instruction or an unknown opcode. -/
theorem step_fl_of_fetchOp_ne {s t : State} (hop : s.fetchOp ≠ Config.opcodeValue .cmp) (h : step s = .next t) :
    t.fl = s.fl := by
  obtain ⟨-, ⟨i, hdecode, hexec⟩ | ⟨e, -, hunknown⟩⟩ := step_cases h
  · refine exec_fl_of_ne_cmp ?_ hexec
    rintro a b rfl
    exact hop (opcode_of_decode hdecode).1
  · exact execUnknownOpcode_fl hunknown

/-- Settles O20: every instruction but CMP frames FL, and a byte other than CMP's opcode never decodes to CMP. -/
theorem flagsWrittenOnlyByCmp : Obligations.FlagsWrittenOnlyByCmp :=
  ⟨fun _ _ _ => exec_fl_of_ne_cmp, fun _ _ => step_fl_of_fetchOp_ne⟩

/-! ### FL is seen only through which way a conditional jump goes -/

/-- A conditional jump reads FL in one place, its condition. -/
theorem exec_eq_condJump {i : Instr} (hi : isCondJump i = true) :
    ∃ (cond : Byte → Bool) (reg : Byte), ∀ s, exec i s = condJump (cond s.fl) reg s := by
  cases i with
  | jeq reg => exact ⟨condEq, reg, fun _ => rfl⟩
  | jne reg => exact ⟨condNe, reg, fun _ => rfl⟩
  | jgt reg => exact ⟨condGt, reg, fun _ => rfl⟩
  | jlt reg => exact ⟨condLt, reg, fun _ => rfl⟩
  | jle reg => exact ⟨condLe, reg, fun _ => rfl⟩
  | jge reg => exact ⟨condGe, reg, fun _ => rfl⟩
  | hlt | ldi | prn | push | pop | call | ret | jmp | add | mul | cmp => cases hi

/-- A conditional jump from another FL, taken or not, answers the same state but for FL and pc. -/
theorem condJump_setFl {taken : Bool} {reg : Byte} {s t : State} (fl : Byte) (taken' : Bool)
    (h : condJump taken reg s = .next t) :
    ∃ p, condJump taken' reg (s.setFl fl) = .next ((t.setPc p).setFl fl) := by
  obtain ⟨hreg, hjump⟩ | ⟨hreg, rfl⟩ := withReg_cases h
  · cases hjump
    exact ⟨_, withReg_of_lt hreg⟩
  · exact ⟨s.pc, withReg_of_ge hreg⟩

theorem exec_setFl_of_condJump {i : Instr} {s t : State} (fl : Byte) (hi : isCondJump i = true)
    (h : exec i s = .next t) : ∃ p, exec i (s.setFl fl) = .next ((t.setPc p).setFl fl) := by
  obtain ⟨cond, reg, hexec⟩ := exec_eq_condJump hi
  rw [hexec] at h ⊢
  exact condJump_setFl fl _ h

/-- An instruction that is no conditional jump, run from another FL, answers the same state but for FL. -/
theorem exec_setFl_of_not_condJump {i : Instr} {s t : State} (fl : Byte) (hi : isCondJump i = false)
    (h : exec i s = .next t) : ∃ v, exec i (s.setFl fl) = .next (t.setFl v) := by
  obtain ⟨hwf, effect⟩ | ⟨hwf, rfl⟩ := exec_cases h
  · cases i with
    | hlt => obtain rfl := effect; exact ⟨fl, execHlt_eq _⟩
    | ldi reg imm => obtain ⟨hreg, rfl⟩ := effect; exact ⟨fl, execLdi_of_lt _ imm hreg⟩
    | prn reg => obtain ⟨hreg, rfl⟩ := effect; exact ⟨fl, execPrn_of_lt _ hreg⟩
    | push reg => obtain ⟨hreg, rfl⟩ := effect; exact ⟨fl, execPush_of_lt _ hreg⟩
    | pop reg => obtain ⟨hreg, rfl⟩ := effect; exact ⟨fl, execPop_of_lt _ hreg⟩
    | call reg => obtain ⟨hreg, rfl⟩ := effect; exact ⟨fl, execCall_of_lt _ hreg⟩
    | ret => obtain rfl := effect; exact ⟨fl, execRet_eq _⟩
    | jmp reg =>
      -- `Effect` leaves a jump's target open; the equation of JMP names it.
      have hreg : reg.toNat < 8 := by simpa [Instr.wellFormed, Instr.regOperands, regOperandOk] using hwf
      cases (execJmp_of_lt s hreg).symm.trans h
      exact ⟨fl, execJmp_of_lt _ hreg⟩
    | add regA regB => obtain ⟨hA, hB, rfl⟩ := effect; exact ⟨fl, execAdd_of_lt _ hA hB⟩
    | mul regA regB => obtain ⟨hA, hB, rfl⟩ := effect; exact ⟨fl, execMul_of_lt _ hA hB⟩
    | cmp regA regB => obtain ⟨hA, hB, rfl⟩ := effect; exact ⟨_, execCmp_of_lt _ hA hB⟩
    | jeq | jne | jgt | jlt | jle | jge => cases hi
  · exact ⟨fl, exec_of_illFormed _ hwf⟩

/-- Settles O21: from another FL a conditional jump answers the same state but for FL and pc, and every other
instruction the same state but for FL. -/
theorem flagsSeenOnlyByConditionalJumps : Obligations.FlagsSeenOnlyByConditionalJumps := by
  intro i s t fl h
  cases hi : isCondJump i
  · obtain ⟨v, hexec⟩ := exec_setFl_of_not_condJump fl hi h
    exact ⟨_, hexec, rfl, rfl, rfl, rfl, rfl, fun _ => rfl⟩
  · obtain ⟨p, hexec⟩ := exec_setFl_of_condJump fl hi h
    exact ⟨_, hexec, rfl, rfl, rfl, rfl, rfl, nofun⟩

end Sys2Proof.Machine
end

section
/-! Proofs about LDI and PRN: encoding, effect, frame and fault (40_load_output_halt.md R100, R105). -/

namespace Sys2Proof.Machine

open Sys2Proof.Stmt

/-! ### Encoding -/

/-- The operand count in the opcode byte (R71) is the number of operand bytes encoded. -/
theorem operandCount_opcodeValue (i : Instr) : operandCount (Config.opcodeValue i.mnemonic) = i.operands.length := by
  have hlength : i.mnemonic.format.length = i.operands.length + 1 := by cases i <;> rfl
  exact Nat.succ_injective ((instrLength_opcodeValue i.mnemonic).trans hlength)

/-- The operand bytes an instruction is decoded with are its own; bytes after them are ignored (R75). -/
theorem decode_opcodeValue_operands (i : Instr) (rest : List Byte) :
    decode (Config.opcodeValue i.mnemonic) ((i.operands ++ rest).getD 0 0) ((i.operands ++ rest).getD 1 0) = .ok i := by
  simp only [decode, mnemonicOf?_opcodeValue, withOperands_operands]

theorem decodeBytes_encode_append (i : Instr) (rest : List Byte) :
    decodeBytes (encode i ++ rest) = .ok (i, rest) := by
  have henough : ¬ (i.operands ++ rest).length < operandCount (Config.opcodeValue i.mnemonic) := by
    rw [operandCount_opcodeValue, List.length_append]
    omega
  simp only [encode, List.cons_append, decodeBytes, decode_opcodeValue_operands, if_neg henough]
  rw [operandCount_opcodeValue, List.drop_left]

theorem encodedAs_encode (i : Instr) : EncodedAs i (encode i) :=
  ⟨rfl, by simpa using decodeBytes_encode_append i []⟩

/-! ### LDI -/

theorem State.readReg_writeReg_self (s : State) (r : Fin 8) (v : Byte) : (s.writeReg r v).readReg r = v :=
  (State.readReg_writeReg s r r v).trans (if_pos rfl)

/-- The frame of a register write, for a register told apart by its number, as the statements do. -/
theorem State.readReg_writeReg_of_ne (s : State) {r q : Fin 8} (v : Byte) (hq : q.val ≠ r.val) :
    (s.writeReg r v).readReg q = s.readReg q :=
  (State.readReg_writeReg s r q v).trans (if_neg fun heq => hq (congrArg Fin.val heq.symm))

/-- Settles O6: the equation of LDI for each range of the operand, and the register read after the write. -/
theorem ldiLoadsTheImmediate : Obligations.LdiLoadsTheImmediate := by
  refine fun s o1 o2 => ⟨encodedAs_encode (.ldi o1 o2), execLdi_of_ge s o2, fun h => ?_⟩
  refine ⟨_, execLdi_of_lt s o2 h, rfl, ?_, ?_, fun _ => rfl, rfl, rfl, rfl, rfl⟩
  · exact State.readReg_writeReg_self s _ o2
  · exact fun _ hq => State.readReg_writeReg_of_ne s o2 hq

/-! ### PRN -/

/-- Settles O7: the equation of PRN for each range of the operand. -/
theorem prnAppendsTheRegister : Obligations.PrnAppendsTheRegister := fun s o1 =>
  ⟨encodedAs_encode (.prn o1), execPrn_of_ge s, execPrn_of_lt s⟩

end Sys2Proof.Machine
end

section
/-! Proofs about RET, JMP and the six conditional jumps: encoding, effect, frame and fault (42_control.md R145 to R160). -/

namespace Sys2Proof.Machine

open Sys2Proof.Stmt

/-! ### The conditional jumps -/

/-- The shared text of the conditional jumps (42_control.md): the operand check comes before the condition, so the rule
holds of an instruction that runs as `condJump` on a condition of FL. -/
theorem condJumpRule_of_exec_eq_condJump {mk : Byte → Instr} {op : Byte} (cond : Byte → Bool)
    (hencode : ∀ o, encode (mk o) = [op, o]) (hexec : ∀ o s, exec (mk o) s = condJump (cond s.fl) o s) :
    CondJumpRule mk op cond := by
  refine fun s o1 => ⟨?_, fun hge => ?_, fun hlt => ?_⟩
  · exact hencode o1 ▸ encodedAs_encode (mk o1)
  · exact (hexec o1 s).trans (withReg_of_ge hge)
  · exact (hexec o1 s).trans (withReg_of_lt hlt)

/-- Settles O14: each conditional jump runs as `condJump`, on the condition that reads its bits of FL. -/
theorem conditionalJumpsTestTheirFlags : Obligations.ConditionalJumpsTestTheirFlags := by
  refine ⟨?jeq, ?jne, ?jgt, ?jlt, ?jge, ?jle⟩
  case jeq => exact condJumpRule_of_exec_eq_condJump condEq (fun _ => rfl) fun _ _ => rfl
  case jne => exact condJumpRule_of_exec_eq_condJump condNe (fun _ => rfl) fun _ _ => rfl
  case jgt => exact condJumpRule_of_exec_eq_condJump condGt (fun _ => rfl) fun _ _ => rfl
  case jlt => exact condJumpRule_of_exec_eq_condJump condLt (fun _ => rfl) fun _ _ => rfl
  case jge => exact condJumpRule_of_exec_eq_condJump condGe (fun _ => rfl) fun _ _ => rfl
  case jle => exact condJumpRule_of_exec_eq_condJump condLe (fun _ => rfl) fun _ _ => rfl

/-! ### RET and JMP -/

/-- Settles O12: the equation of RET, and the registers read after SP is incremented. -/
theorem retPopsThePc : Obligations.RetPopsThePc := by
  refine ⟨encodedAs_encode .ret, fun s => ?_⟩
  refine ⟨_, execRet_eq s, rfl, ?_, fun q hq => ?_, fun _ => rfl, rfl, rfl, rfl, rfl⟩
  · exact (State.readReg_incSp _ 7).trans (if_pos rfl)
  · exact (State.readReg_incSp _ q).trans (if_neg hq)

/-- Settles O13: the equation of JMP for each range of the operand. -/
theorem jmpGoesToTheRegister : Obligations.JmpGoesToTheRegister := fun s o1 =>
  ⟨encodedAs_encode (.jmp o1), execJmp_of_ge s, execJmp_of_lt s⟩

end Sys2Proof.Machine
end

section
/-! Proofs about MUL, ADD and CMP: encoding, effect, frame and faults (43_alu.md R172, R174, R175). -/

namespace Sys2Proof.Machine

open Sys2Proof.Stmt

/-! ### CMP -/

theorem cmpBit_of_gt {x y : Byte} (h : x.toNat > y.toNat) : cmpBit x y = 0b100 := if_pos h

theorem cmpBit_of_lt {x y : Byte} (h : x.toNat < y.toNat) : cmpBit x y = 0b010 :=
  (if_neg h.not_gt).trans (if_pos h)

theorem cmpBit_of_eq {x y : Byte} (h : x.toNat = y.toNat) : cmpBit x y = 0b001 :=
  (if_neg h.not_gt).trans (if_neg h.not_lt)

/-- Settles O17: the bit is `cmpBit` of the two registers, and the equation of CMP writes it as the policy says. -/
theorem cmpSetsTheFlagOfTheOrder : Obligations.CmpSetsTheFlagOfTheOrder := by
  refine fun s o1 o2 => ⟨encodedAs_encode (.cmp o1 o2), execCmp_of_ge s, fun h1 h2 => ?_⟩
  have hexec := execCmp_of_lt s h1 h2
  refine ⟨_, cmpBit_of_gt, cmpBit_of_lt, cmpBit_of_eq, fun hclear => ?_, fun hor => ?_⟩
  · rw [hclear] at hexec
    exact hexec
  · rw [hor] at hexec
    exact hexec

/-! ### MUL and ADD -/

theorem toNat_aluMul (x y : Byte) : (aluMul x y).toNat = x.toNat * y.toNat % 256 := BitVec.toNat_ofNat _ _

theorem toNat_aluAdd (x y : Byte) : (aluAdd x y).toNat = (x.toNat + y.toNat) % 256 := BitVec.toNat_ofNat _ _

/-- What MUL and ADD share (43_alu.md): the rule holds of an instruction that faults on an operand of 8 to 255 and
otherwise writes `alu` of the two registers to regA and advances, where `alu` computes `f` on unsigned values. -/
theorem arithRule_of_exec_eq_writeReg {mk : Byte → Byte → Instr} {op : Byte} {f : Nat → Nat → Nat}
    {alu : Byte → Byte → Byte} (halu : ∀ x y, (alu x y).toNat = f x.toNat y.toNat)
    (hencode : ∀ o1 o2, encode (mk o1 o2) = [op, o1, o2])
    (hge : ∀ (s : State) {o1 o2 : Byte}, 8 ≤ o1.toNat ∨ 8 ≤ o2.toNat →
      exec (mk o1 o2) s = .next (s.raiseFault .illegalRegister))
    (hlt : ∀ (s : State) {o1 o2 : Byte} (h1 : o1.toNat < 8) (h2 : o2.toNat < 8),
      exec (mk o1 o2) s = .next ((s.writeReg ⟨o1.toNat, h1⟩
        (alu (s.readReg ⟨o1.toNat, h1⟩) (s.readReg ⟨o2.toNat, h2⟩))).setPc (s.pc + 3))) :
    ArithRule mk op f := by
  refine fun s o1 o2 => ⟨hencode o1 o2 ▸ encodedAs_encode (mk o1 o2), hge s, fun h1 h2 => ?_⟩
  refine ⟨_, hlt s h1 h2, rfl, ?_, fun q hq => ?_, fun _ => rfl, rfl, rfl, rfl, rfl⟩
  · rw [State.readReg_setPc, State.readReg_writeReg_self, halu]
  · exact State.readReg_writeReg_of_ne s _ hq

/-- Settles O15: MUL writes `aluMul`, the product modulo 256. -/
theorem mulIsProductModulo256 : Obligations.MulIsProductModulo256 :=
  arithRule_of_exec_eq_writeReg toNat_aluMul (fun _ _ => rfl) execMul_of_ge execMul_of_lt

/-- Settles O16: ADD writes `aluAdd`, the sum modulo 256. -/
theorem addIsSumModulo256 : Obligations.AddIsSumModulo256 :=
  arithRule_of_exec_eq_writeReg toNat_aluAdd (fun _ _ => rfl) execAdd_of_ge execAdd_of_lt

end Sys2Proof.Machine
end

section
/-! Proofs about reset: the value of every state element (70_reset_and_hazards.md R230). -/

namespace Sys2Proof.Machine

/-! ### What memory and the registers read as after reset -/

/-- Reset lists no byte of memory, and an unlisted byte reads as zero. -/
@[simp] theorem State.readMem_reset (a : Byte) : State.reset.readMem a = 0x00 := rfl

@[simp] theorem State.readReg_reset (q : Fin 8) : State.reset.readReg q = if q = 7 then 0xF4 else 0x00 :=
  Vector.get_ofFn regResetValue q

@[simp] theorem State.readMem_applyReset (s : State) (a : Byte) : s.applyReset.readMem a = State.reset.readMem a := rfl

@[simp] theorem State.readReg_applyReset (s : State) (q : Fin 8) :
    s.applyReset.readReg q = State.reset.readReg q := rfl

/-- Settles O41: the first reset state reads as stated, and the reset port gives that state but for `out` and the
parameters, which it keeps. -/
theorem resetLeavesTheStatedValues : Obligations.ResetLeavesTheStatedValues := by
  refine fun s => ⟨List.forall_mem_cons.2 ⟨?first, List.forall_mem_singleton.2 ?port⟩, rfl⟩
  case first => exact ⟨State.readMem_reset, State.readReg_reset, rfl, rfl, rfl⟩
  case port =>
    refine ⟨fun a => ?_, fun q => ?_, rfl, rfl, rfl⟩
    · exact (State.readMem_applyReset s a).trans (State.readMem_reset a)
    · exact (State.readReg_applyReset s q).trans (State.readReg_reset q)

end Sys2Proof.Machine
end

section
/-! Proofs about the decoder and the encoder (30_encoding.md sections 1 to 4). -/

namespace Sys2Proof.Machine

open Sys2Proof.Stmt

/-! ### Decoding what was encoded, and encoding what was decoded -/

/-- Settles O1: the operand bytes encoded are as many as the opcode byte says, and the instruction is decoded with its
own. -/
theorem decodeOfEncodeIsTheInstruction : Obligations.DecodeOfEncodeIsTheInstruction :=
  decodeBytes_encode_append

theorem operandCount_opcodeValue_le_two (m : Mnemonic) : operandCount (Config.opcodeValue m) ≤ 2 := by
  cases m <;> decide

/-- An instruction takes the first of the two bytes it is decoded with, as many as its opcode byte says (R71, R75). -/
theorem operands_withOperands (m : Mnemonic) (o1 o2 : Byte) :
    (m.withOperands o1 o2).operands = [o1, o2].take (operandCount (Config.opcodeValue m)) := by
  cases m <;> rfl

/-- The bytes the decoder reads past the end of a string are not among the ones it uses. -/
theorem take_getD_getD {bytes : List Byte} {n : Nat} (hlength : n ≤ bytes.length) (htwo : n ≤ 2) :
    [bytes.getD 0 0, bytes.getD 1 0].take n = bytes.take n := by
  match bytes, n with
  | _, 0 => rfl
  | _ :: _, 1 => rfl
  | _ :: _ :: _, 2 => rfl

/-- Settles O2: the instruction's name gives the opcode byte back, and its operands are the bytes that were read. -/
theorem encodeOfDecodeIsTheBytes : Obligations.EncodeOfDecodeIsTheBytes := by
  rintro (_ | ⟨op, bytes⟩) i rest h
  · cases h
  simp only [decodeBytes] at h
  split at h
  · cases h
  rename_i hdecode
  split at h
  · cases h
  rename_i henough
  cases h
  obtain ⟨hop, hi⟩ := opcode_of_decode hdecode
  have hoperands : i.operands = bytes.take (operandCount op) := by
    rw [hi, operands_withOperands, ← hop]
    exact take_getD_getD (Nat.not_lt.1 henough) (hop ▸ operandCount_opcodeValue_le_two _)
  rw [encode, ← hop, hoperands, List.cons_append, List.take_append_drop]

/-- Settles O3: the decoder is run on the six words. -/
theorem tableWordsDecode : Obligations.TableWordsDecode := by
  unfold Obligations.TableWordsDecode
  decide

/-! ### Which bytes are dispatched -/

theorem mnemonic_mem_all (m : Mnemonic) : m ∈ Mnemonic.all := by
  cases m <;> decide

theorem opcodes_eq_map_opcodeValue : opcodes = Mnemonic.all.map Config.opcodeValue := rfl

theorem opcodeValue_mem_opcodes (m : Mnemonic) : Config.opcodeValue m ∈ opcodes :=
  opcodes_eq_map_opcodeValue ▸ List.mem_map_of_mem (mnemonic_mem_all m)

theorem decode_opcodeValue (m : Mnemonic) (o1 o2 : Byte) :
    decode (Config.opcodeValue m) o1 o2 = .ok (m.withOperands o1 o2) := by
  simp only [decode, mnemonicOf?_opcodeValue]

theorem decode_of_mem {op : Byte} (o1 o2 : Byte) (hop : op ∈ opcodes) : ∃ i, decode op o1 o2 = .ok i := by
  rw [opcodes_eq_map_opcodeValue] at hop
  obtain ⟨m, -, rfl⟩ := List.mem_map.1 hop
  exact ⟨_, decode_opcodeValue m o1 o2⟩

/-- The cases of dispatch (R78): the byte is a name's value, or it is no opcode. -/
theorem opcode_cases (op : Byte) : (∃ m, Config.opcodeValue m = op) ∨ op ∉ opcodes := by
  by_cases hop : op ∈ opcodes
  · obtain ⟨i, hdecode⟩ := decode_of_mem 0 0 hop
    exact .inl ⟨i.mnemonic, (opcode_of_decode hdecode).1.symm⟩
  · exact .inr hop

theorem decode_of_notMem {op : Byte} (o1 o2 : Byte) (hop : op ∉ opcodes) :
    decode op o1 o2 = .error (.unknownOpcode op) := by
  unfold decode
  split
  · rename_i m hm
    exact absurd (opcodeValue_of_mnemonicOf? hm ▸ opcodeValue_mem_opcodes m) hop
  · rfl

theorem notMem_of_decode_error {op o1 o2 : Byte} {e : DecodeError} (h : decode op o1 o2 = .error e) :
    op ∉ opcodes := by
  intro hop
  obtain ⟨i, hdecode⟩ := decode_of_mem o1 o2 hop
  cases hdecode.symm.trans h

/-- Settles O4: the 17 bytes are the values of the 17 names. -/
theorem exactlySeventeenOpcodesDecode : Obligations.ExactlySeventeenOpcodesDecode :=
  fun _ o1 o2 => ⟨decode_of_mem o1 o2, decode_of_notMem o1 o2⟩

/-! ### Unused operand bytes -/

/-- A name without operands ignores both bytes it is decoded with. -/
theorem withOperands_of_operandCount_zero {m : Mnemonic} (h : operandCount (Config.opcodeValue m) = 0)
    (o1 o2 p1 p2 : Byte) : m.withOperands o1 o2 = m.withOperands p1 p2 := by
  cases m with
  | hlt | ret => rfl
  | ldi | prn | push | pop | call | jmp | jeq | jne | jgt | jlt | jle | jge | add | mul | cmp =>
    exact absurd h (by decide)

/-- A name with one operand ignores the second byte it is decoded with. -/
theorem withOperands_of_operandCount_one {m : Mnemonic} (h : operandCount (Config.opcodeValue m) = 1)
    (o1 o2 p2 : Byte) : m.withOperands o1 o2 = m.withOperands o1 p2 := by
  cases m with
  | prn | push | pop | call | jmp | jeq | jne | jgt | jlt | jle | jge => rfl
  | hlt | ret | ldi | add | mul | cmp => exact absurd h (by decide)

/-- Settles O5: bits 7..6 of an opcode count the bytes its name uses; a byte that is no opcode is rejected whatever
follows it. -/
theorem unusedOperandBytesIgnored : Obligations.UnusedOperandBytesIgnored := by
  intro op o1 o2 p1 p2
  obtain ⟨m, rfl⟩ | hop := opcode_cases op
  · simp only [decode_opcodeValue]
    refine ⟨fun h => ?_, fun h => ?_⟩
    · exact congrArg _ (withOperands_of_operandCount_zero (congrArg BitVec.toNat h) o1 o2 p1 p2)
    · exact congrArg _ (withOperands_of_operandCount_one (congrArg BitVec.toNat h) o1 o2 p2)
  · simp only [decode_of_notMem _ _ hop, implies_true, and_self]

end Sys2Proof.Machine
end

section
/-! What one step can be, as named outcomes, and which steps a running core takes (30_encoding.md R80, 60_exceptions.md
R201 to R208). -/

namespace Sys2Proof.Machine

open Sys2Proof.Stmt

/-! ### What a running core's step is -/

theorem step_of_decode_ok {s : State} {i : Instr} (hrun : s.run = .running)
    (hdecode : decode s.fetchOp s.fetchO1 s.fetchO2 = .ok i) : step s = exec i s := by
  simp only [step, hrun, hdecode]

theorem step_of_notMem {s : State} (hrun : s.run = .running) (hop : s.fetchOp ∉ opcodes) :
    step s = execUnknownOpcode s.fetchOp s := by
  simp only [step, hrun, decode_of_notMem _ _ hop]

/-- A running core whose byte at pc is a name's opcode runs the instruction of that name. -/
theorem step_of_opcode {s : State} (m : Mnemonic) (hrun : s.run = .running) (hop : s.fetchOp = Config.opcodeValue m) :
    step s = exec (m.withOperands s.fetchO1 s.fetchO2) s := by
  refine step_of_decode_ok hrun ?_
  rw [hop, decode_opcodeValue]

theorem execUnknownOpcode_of_strict (op : Byte) {s : State} (hpolicy : s.cfg.unknownOpcode = .strict) :
    execUnknownOpcode op s = .next (s.raiseFault .illegalOpcode) := by
  simp only [execUnknownOpcode, hpolicy]

theorem execUnknownOpcode_of_permissive (op : Byte) {s : State} (hpolicy : s.cfg.unknownOpcode = .permissive) :
    execUnknownOpcode op s = .next (s.genericAdvance op) := by
  simp only [execUnknownOpcode, hpolicy]

theorem faultState_eq_raiseFault (c : Cause) (s : State) : faultState c s = s.raiseFault c := rfl

/-- Settles O31: the step dispatches on the three bytes and adds nothing around the instruction. -/
theorem stepRunsTheDecodedInstruction : Obligations.StepRunsTheDecodedInstruction :=
  fun _ _ hrun hdecode => step_of_decode_ok hrun hdecode

/-- Settles O30: the step looks at the run state first. -/
theorem stoppedCoreTakesNoStep : Obligations.StoppedCoreTakesNoStep := by
  refine fun s => ⟨fun hrun => ?_, fun record hrun => ?_⟩
  · simp only [step, hrun, stepWhenHalted]
  · simp only [step, hrun, stepWhenFaulted]

/-! ### Every instruction answers -/

theorem withReg_total {s : State} {o : Byte} {f : Fin 8 → Result} (hf : ∀ r, ∃ t, f r = .next t) :
    ∃ t, withReg s o f = .next t := by
  obtain hlt | hge := Nat.lt_or_ge o.toNat 8
  · rw [withReg_of_lt hlt]
    exact hf _
  · exact ⟨_, withReg_of_ge hge⟩

theorem withRegs_total {s : State} {o1 o2 : Byte} {f : Fin 8 → Fin 8 → Result} (hf : ∀ a b, ∃ t, f a b = .next t) :
    ∃ t, withRegs s o1 o2 f = .next t :=
  withReg_total fun a => withReg_total (hf a)

/-- No meaning refuses or stops the machine: a bad operand leads to a next state too (R203). -/
theorem exec_total (i : Instr) (s : State) : ∃ t, exec i s = .next t := by
  cases i with
  | hlt | ret => exact ⟨_, rfl⟩
  | ldi | prn | push | pop | call | jmp | jeq | jne | jgt | jlt | jle | jge => exact withReg_total fun _ => ⟨_, rfl⟩
  | add | mul | cmp => exact withRegs_total fun _ _ => ⟨_, rfl⟩

theorem execUnknownOpcode_total (op : Byte) (s : State) : ∃ t, execUnknownOpcode op s = .next t := by
  unfold execUnknownOpcode
  split <;> exact ⟨_, rfl⟩

/-- Settles O29: every meaning answers a next state, the unknown-opcode rule included. -/
theorem runningCoreAlwaysTakesAStep : Obligations.RunningCoreAlwaysTakesAStep := by
  refine ⟨exec_total, fun s hrun => ?_⟩
  obtain ⟨m, hop⟩ | hop := opcode_cases s.fetchOp
  · rw [step_of_opcode m hrun hop.symm]
    exact exec_total _ s
  · rw [step_of_notMem hrun hop]
    exact execUnknownOpcode_total _ s

/-! ### The four outcomes of a step -/

/-- What a step that answers a next state has done. -/
inductive StepOutcome (s t : State) : Prop where
  /-- It ran an instruction whose register operands name registers. -/
  | ran (i : Instr) (hdecode : decode s.fetchOp s.fetchO1 s.fetchO2 = .ok i) (hwf : i.wellFormed = true)
      (effect : Effect i s t)
  /-- An opcode with a register operand of 8 to 255 (R206). -/
  | illegalRegister (i : Instr) (hdecode : decode s.fetchOp s.fetchO1 s.fetchO2 = .ok i)
      (hwf : i.wellFormed = false) (ht : t = s.raiseFault .illegalRegister)
  /-- A byte that is no opcode, under Strict (R204). -/
  | illegalOpcode (hop : s.fetchOp ∉ opcodes) (hpolicy : s.cfg.unknownOpcode = .strict)
      (ht : t = s.raiseFault .illegalOpcode)
  /-- A byte that is no opcode, under Permissive (R82). -/
  | skipped (hop : s.fetchOp ∉ opcodes) (hpolicy : s.cfg.unknownOpcode = .permissive)
      (ht : t = s.setPc (if setsPc s.fetchOp then s.pc else nextAddr s.fetchOp s.pc))

theorem stepOutcome {s t : State} (h : step s = .next t) : StepOutcome s t := by
  obtain ⟨-, ⟨i, hdecode, hexec⟩ | ⟨e, hdecode, hunknown⟩⟩ := step_cases h
  · obtain ⟨hwf, effect⟩ | ⟨hwf, ht⟩ := exec_cases hexec
    · exact .ran i hdecode hwf effect
    · exact .illegalRegister i hdecode hwf ht
  · have hop := notMem_of_decode_error hdecode
    obtain ⟨hpolicy, ht⟩ | ⟨hpolicy, ht⟩ := execUnknownOpcode_cases hunknown
    · exact .illegalOpcode hop hpolicy ht
    · exact .skipped hop hpolicy ht

theorem run_of_step {s t : State} (h : step s = .next t) : s.run = .running := (step_cases h).1

/-! ### The frame of an effect -/

section
variable {i : Instr} {s t : State}

/-- An instruction that runs without a fault halts if it is HLT and leaves the run state as it is otherwise. -/
theorem Effect.run (h : Effect i s t) : (i = .hlt ∧ t.run = .halted) ∨ (i ≠ .hlt ∧ t.run = s.run) := by
  cases i with
  | hlt => obtain rfl := h; exact .inl ⟨rfl, rfl⟩
  | ret => obtain rfl := h; exact .inr ⟨nofun, rfl⟩
  | ldi | prn | push | pop | call => obtain ⟨-, rfl⟩ := h; exact .inr ⟨nofun, rfl⟩
  | jmp | jeq | jne | jgt | jlt | jle | jge => obtain ⟨p, rfl⟩ := h; exact .inr ⟨nofun, rfl⟩
  | add | mul | cmp => obtain ⟨-, -, rfl⟩ := h; exact .inr ⟨nofun, rfl⟩

theorem Effect.cfg (h : Effect i s t) : t.cfg = s.cfg := by
  cases i with
  | hlt | ret => obtain rfl := h; rfl
  | ldi | prn | push | pop | call => obtain ⟨-, rfl⟩ := h; rfl
  | jmp | jeq | jne | jgt | jlt | jle | jge => obtain ⟨p, rfl⟩ := h; rfl
  | add | mul | cmp => obtain ⟨-, -, rfl⟩ := h; rfl

/-- Memory changes by a push alone (R54). -/
theorem Effect.mem (h : Effect i s t) :
    t.mem = s.mem ∨
      ((i.mnemonic = .push ∨ i.mnemonic = .call) ∧ ∃ v, t.mem = (s.writeMem s.pushAddr v).mem) := by
  cases i with
  | push => obtain ⟨-, rfl⟩ := h; exact .inr ⟨.inl rfl, _, rfl⟩
  | call => obtain ⟨-, rfl⟩ := h; exact .inr ⟨.inr rfl, _, rfl⟩
  | hlt | ret => obtain rfl := h; exact .inl rfl
  | ldi | prn | pop => obtain ⟨-, rfl⟩ := h; exact .inl rfl
  | jmp | jeq | jne | jgt | jlt | jle | jge => obtain ⟨p, rfl⟩ := h; exact .inl rfl
  | add | mul | cmp => obtain ⟨-, -, rfl⟩ := h; exact .inl rfl

theorem Effect.out (h : Effect i s t) :
    t.out = s.out ∨ ∃ (o : Byte) (ho : o.toNat < 8), i = .prn o ∧ t.out = s.out ++ [s.readReg ⟨o.toNat, ho⟩] := by
  cases i with
  | prn o => obtain ⟨ho, rfl⟩ := h; exact .inr ⟨o, ho, rfl, rfl⟩
  | hlt | ret => obtain rfl := h; exact .inl rfl
  | ldi | push | pop | call => obtain ⟨-, rfl⟩ := h; exact .inl rfl
  | jmp | jeq | jne | jgt | jlt | jle | jge => obtain ⟨p, rfl⟩ := h; exact .inl rfl
  | add | mul | cmp => obtain ⟨-, -, rfl⟩ := h; exact .inl rfl

/-- The generic advance (R81): an instruction that does not place pc itself moves it past its own bytes. -/
theorem Effect.pc_of_not_placesPc (h : Effect i s t) (hpc : i.mnemonic.placesPc = false) :
    t.pc = s.pc + BitVec.ofNat 8 i.mnemonic.format.length := by
  cases i with
  | hlt => obtain rfl := h; rfl
  | ldi | prn | push | pop => obtain ⟨-, rfl⟩ := h; rfl
  | add | mul | cmp => obtain ⟨-, -, rfl⟩ := h; rfl
  | call | ret | jmp | jeq | jne | jgt | jlt | jle | jge => cases hpc

end

/-! ### When a step faults -/

theorem wellFormed_eq_false_iff {i : Instr} : i.wellFormed = false ↔ ∃ o ∈ i.regOperands, 7 < o.toNat := by
  simp only [Instr.wellFormed, regOperandOk, List.all_eq_false, decide_eq_true_eq, Nat.not_lt, Nat.succ_le_iff]

/-- A step that ends in Faulted is one of the two faults, and nothing else (R203). -/
theorem raiseFault_of_step_faulted {s t : State} {record : FaultRecord} (h : step s = .next t)
    (hrun : t.run = .faulted record) :
    (t = s.raiseFault .illegalOpcode ∧ s.cfg.unknownOpcode = .strict ∧ s.fetchOp ∉ opcodes) ∨
      (t = s.raiseFault .illegalRegister ∧
        ∃ i, decode s.fetchOp s.fetchO1 s.fetchO2 = .ok i ∧ i.wellFormed = false) := by
  have hrunning := run_of_step h
  cases stepOutcome h with
  | ran i hdecode hwf effect =>
    obtain ⟨-, hrun'⟩ | ⟨-, hrun'⟩ := effect.run <;> simp [hrun, hrunning] at hrun'
  | illegalRegister i hdecode hwf ht => exact .inr ⟨ht, i, hdecode, hwf⟩
  | illegalOpcode hop hpolicy ht => exact .inl ⟨ht, hpolicy, hop⟩
  | skipped hop hpolicy ht =>
    subst ht
    cases hrun.symm.trans hrunning

theorem raiseFault_injective {s : State} {c d : Cause} (h : s.raiseFault c = s.raiseFault d) : c = d := by
  have hrun := congrArg State.run h
  simp only [State.raiseFault_run] at hrun
  injection hrun with hrecord
  exact congrArg FaultRecord.cause hrecord

/-- Settles O27: either fault is `raiseFault`, which writes the record and nothing else. -/
theorem faultsAreWithoutEffect : Obligations.FaultsAreWithoutEffect := by
  intro s t record h hrun
  obtain ⟨rfl, -⟩ | ⟨rfl, -⟩ := raiseFault_of_step_faulted h hrun <;>
  · cases hrun
    exact ⟨rfl, rfl, rfl, rfl, rfl⟩

/-- Settles O28: each fault is raised in its case, and a step that ends in Faulted is in the case of its cause. -/
theorem faultCausesAreExact : Obligations.FaultCausesAreExact := by
  intro s hrun
  simp only [faultState_eq_raiseFault, ← wellFormed_eq_false_iff]
  refine ⟨⟨fun h => ?_, fun ⟨hpolicy, hop⟩ => ?_⟩, ⟨fun h => ?_, fun ⟨i, hdecode, hwf⟩ => ?_⟩⟩
  · obtain ⟨-, hcase⟩ | ⟨heq, -⟩ := raiseFault_of_step_faulted h rfl
    · exact hcase
    · cases raiseFault_injective heq
  · exact (step_of_notMem hrun hop).trans (execUnknownOpcode_of_strict _ hpolicy)
  · obtain ⟨heq, -⟩ | ⟨-, hcase⟩ := raiseFault_of_step_faulted h rfl
    · cases raiseFault_injective heq
    · exact hcase
  · exact (step_of_decode_ok hrun hdecode).trans (exec_of_illFormed s hwf)

end Sys2Proof.Machine
end

section
/-! Proofs about every step: what it may change, and where pc goes (10_state.md, 20_memory.md R54, 30_encoding.md R81,
R82). Each is a case analysis over the four outcomes of a step. -/

namespace Sys2Proof.Machine

open Sys2Proof.Stmt

/-! ### Memory -/

/-- The opcode byte of the instruction a step decodes. -/
theorem fetchOp_of_decode {s : State} {i : Instr} (hdecode : decode s.fetchOp s.fetchO1 s.fetchO2 = .ok i) :
    s.fetchOp = Config.opcodeValue i.mnemonic := (opcode_of_decode hdecode).1

theorem State.readMem_eq_of_mem_eq {s t : State} (h : t.mem = s.mem) (a : Byte) : t.readMem a = s.readMem a :=
  congrArg (fun m => Memory.get m a.toNat) h

/-- Settles O22: of the four outcomes only an effect touches memory, and among the effects only a push. -/
theorem memoryWrittenOnlyByPushAndCall : Obligations.MemoryWrittenOnlyByPushAndCall := by
  intro s t a h hne
  cases stepOutcome h with
  | ran i hdecode hwf effect =>
    obtain hmem | ⟨hname, v, hmem⟩ := effect.mem
    · exact absurd (State.readMem_eq_of_mem_eq hmem a) hne
    · have hread := State.readMem_eq_of_mem_eq hmem a
      rw [State.readMem_writeMem] at hread
      split at hread
      · rename_i ha
        refine ⟨ha ▸ s.pushAddr_eq, ?_⟩
        rw [fetchOp_of_decode hdecode]
        exact hname.imp (congrArg Config.opcodeValue) (congrArg Config.opcodeValue)
      · exact absurd hread hne
  | illegalRegister | illegalOpcode | skipped => subst t; exact absurd rfl hne

/-- Settles O23: the one byte a step may write is the one the next push would write. -/
theorem stepKeepsTheImageWhileTheStackIsClear : Obligations.StepKeepsTheImageWhileTheStackIsClear := by
  intro s t n a hclear ha h
  by_contra hne
  obtain ⟨rfl, -⟩ := memoryWrittenOnlyByPushAndCall s t a h hne
  rw [← State.pushAddr_eq] at ha
  exact absurd hclear (Nat.not_le.2 ha)

/-! ### Registers -/

/-- A register write shows at the register written alone. -/
theorem State.val_eq_of_readReg_writeReg_ne {s : State} {r q : Fin 8} {v : Byte}
    (hne : (s.writeReg r v).readReg q ≠ s.readReg q) : r.val = q.val := by
  by_contra hval
  exact hne (State.readReg_writeReg_of_ne s v (Ne.symm hval))

/-- An effect changes the register its first operand names, or moves SP. -/
theorem Effect.reg_of_readReg_ne {i : Instr} {s t : State} {q : Fin 8} (h : Effect i s t)
    (hne : t.readReg q ≠ s.readReg q) :
    (∃ o, i.operands.head? = some o ∧ o.toNat = q.val ∧ i.mnemonic ∈ [.ldi, .pop, .mul, .add]) ∨
      (q = 7 ∧ i.mnemonic ∈ [.push, .pop, .call, .ret]) := by
  cases i with
  | ldi o imm =>
    obtain ⟨ho, rfl⟩ := h
    exact .inl ⟨o, rfl, State.val_eq_of_readReg_writeReg_ne hne, by simp [Instr.mnemonic]⟩
  | add o1 o2 | mul o1 o2 =>
    obtain ⟨h1, h2, rfl⟩ := h
    exact .inl ⟨o1, rfl, State.val_eq_of_readReg_writeReg_ne hne, by simp [Instr.mnemonic]⟩
  | pop o =>
    obtain ⟨ho, rfl⟩ := h
    by_cases hq : q = 7
    · exact .inr ⟨hq, by simp [Instr.mnemonic]⟩
    · rw [State.readReg_setPc, State.readReg_incSp, if_neg hq] at hne
      exact .inl ⟨o, rfl, State.val_eq_of_readReg_writeReg_ne hne, by simp [Instr.mnemonic]⟩
  | push o | call o =>
    obtain ⟨ho, rfl⟩ := h
    exact .inr ⟨(Fin.ext (State.val_eq_of_readReg_writeReg_ne hne)).symm, by simp [Instr.mnemonic]⟩
  | ret =>
    obtain rfl := h
    exact .inr ⟨(Fin.ext (State.val_eq_of_readReg_writeReg_ne hne)).symm, by simp [Instr.mnemonic]⟩
  | hlt => obtain rfl := h; exact absurd rfl hne
  | prn => obtain ⟨ho, rfl⟩ := h; exact absurd rfl hne
  | cmp => obtain ⟨h1, h2, rfl⟩ := h; exact absurd rfl hne
  | jmp | jeq | jne | jgt | jlt | jle | jge => obtain ⟨p, rfl⟩ := h; exact absurd rfl hne

/-- The first operand of a decoded instruction is the first operand byte of the fetch. -/
theorem eq_of_head?_operands {op o1 o2 o : Byte} {i : Instr} (hdecode : decode op o1 o2 = .ok i)
    (ho : i.operands.head? = some o) : o1 = o := by
  rw [(opcode_of_decode hdecode).2, operands_withOperands, List.head?_take] at ho
  split at ho
  · cases ho
  · exact Option.some.inj ho

/-- Settles O24: of the four outcomes only an effect touches a register. -/
theorem registersWrittenOnlyByTheirInstructions : Obligations.RegistersWrittenOnlyByTheirInstructions := by
  intro s t q h hne
  cases stepOutcome h with
  | ran i hdecode hwf effect =>
    rw [fetchOp_of_decode hdecode]
    obtain ⟨o, ho, hq, hname⟩ | ⟨hq, hname⟩ := effect.reg_of_readReg_ne hne
    · refine .inl ⟨?_, List.mem_map_of_mem (f := Config.opcodeValue) hname⟩
      rw [eq_of_head?_operands hdecode ho, hq]
    · exact .inr ⟨hq, List.mem_map_of_mem (f := Config.opcodeValue) hname⟩
  | illegalRegister | illegalOpcode | skipped => subst t; exact absurd rfl hne

/-! ### The output, the run state and the parameters -/

/-- Settles O25: of the four outcomes only an effect touches `out`, and among the effects only PRN's. -/
theorem outputGrowsOnlyByPrn : Obligations.OutputGrowsOnlyByPrn := by
  intro s t h
  cases stepOutcome h with
  | ran i hdecode hwf effect =>
    obtain hout | ⟨o, ho, rfl, hout⟩ := effect.out
    · exact .inl hout
    · exact .inr ⟨fetchOp_of_decode hdecode, _, congrArg BitVec.toNat (eq_of_head?_operands hdecode rfl), hout⟩
  | illegalRegister | illegalOpcode | skipped => subst t; exact .inl rfl

/-- A running core whose byte at pc is HLT's halts. -/
theorem step_of_fetchOp_hlt {s : State} (hrun : s.run = .running) (hop : s.fetchOp = 0x01) :
    step s = .next (s.halt.setPc (s.pc + 1)) :=
  (step_of_opcode .hlt hrun hop).trans (execHlt_eq s)

/-- Settles O26: of the four outcomes only HLT's effect ends in Halted. -/
theorem haltedEnteredExactlyByHlt : Obligations.HaltedEnteredExactlyByHlt := by
  intro s t h
  have hrunning := run_of_step h
  refine ⟨fun hhalted => ?_, fun hop => ?_⟩
  · cases stepOutcome h with
    | ran i hdecode hwf effect =>
      obtain ⟨rfl, -⟩ | ⟨-, hrun⟩ := effect.run
      · exact fetchOp_of_decode hdecode
      · simp [hhalted, hrunning] at hrun
    | illegalRegister | illegalOpcode => subst t; cases hhalted
    | skipped => subst t; cases hrunning.symm.trans hhalted
  · cases (step_of_fetchOp_hlt hrunning hop).symm.trans h
    rfl

/-- Settles O34: no outcome of a step writes the parameters, and the reset port copies them. -/
theorem parametersNeverChange : Obligations.ParametersNeverChange := by
  refine ⟨fun s t h => ?_, fun _ => rfl⟩
  cases stepOutcome h with
  | ran i hdecode hwf effect => exact effect.cfg
  | illegalRegister | illegalOpcode | skipped => subst t; rfl

/-! ### The program counter -/

theorem instrLength_eq (op : Byte) : instrLength op = op.toNat / 64 + 1 := by
  simp only [instrLength, operandCount, BitVec.toNat_ushiftRight, Nat.shiftRight_eq_div_pow]

/-- The fall-through address by the numeric value of the opcode byte (R12, R71). -/
theorem nextAddr_eq (op a : Byte) : nextAddr op a = a + BitVec.ofNat 8 (op.toNat / 64 + 1) := by
  rw [nextAddr, instrLength_eq]

/-- Settles O32: the unknown-opcode rule under each policy, and the generic advance it ends with. -/
theorem unknownOpcodeFollowsThePolicy : Obligations.UnknownOpcodeFollowsThePolicy := by
  intro s hrun hop
  have hstep := step_of_notMem hrun hop
  refine ⟨fun hpolicy => ?_, fun hpolicy => ?_⟩
  · exact hstep.trans (execUnknownOpcode_of_strict _ hpolicy)
  · rw [hstep, execUnknownOpcode_of_permissive _ hpolicy, State.genericAdvance, nextAddr_eq]
    rfl

/-- Settles O33: a step that leaves the core running is an effect or a skipped byte, and both advance pc by the length
read off the opcode byte. -/
theorem genericAdvanceByOperandCount : Obligations.GenericAdvanceByOperandCount := by
  intro s t h hrun hbit
  have hsets : setsPc s.fetchOp = false := hbit
  cases stepOutcome h with
  | ran i hdecode hwf effect =>
    have hop := fetchOp_of_decode hdecode
    rw [hop, setsPc_opcodeValue] at hsets
    rw [effect.pc_of_not_placesPc hsets, hop, ← instrLength_eq, instrLength_opcodeValue]
  | illegalRegister | illegalOpcode => subst t; cases hrun
  | skipped hop hpolicy ht => rw [ht, hsets, ← nextAddr_eq]; rfl

end Sys2Proof.Machine
end

section
/-! Proofs about the invariant: every step keeps it, and every run begins with it (10_state.md R31, R35, 43_alu.md R176,
60_exceptions.md R203). -/

namespace Sys2Proof.Machine

open Sys2Proof.Stmt

/-! ### The flags CMP writes -/

/-- The bit of a comparison is that of one of the three orders (R175). -/
theorem cmpBit_cases (x y : Byte) : cmpBit x y = 0b100 ∨ cmpBit x y = 0b010 ∨ cmpBit x y = 0b001 := by
  obtain hlt | heq | hgt := Nat.lt_trichotomy x.toNat y.toNat
  · exact .inr (.inl (cmpBit_of_lt hlt))
  · exact .inr (.inr (cmpBit_of_eq heq))
  · exact .inl (cmpBit_of_gt hgt)

theorem cmpBit_mem (x y : Byte) : cmpBit x y ∈ [0b000, 0b001, 0b010, 0b100] := by
  obtain h | h | h := cmpBit_cases x y <;> rw [h] <;> decide

theorem cmpBit_reserved (x y : Byte) : cmpBit x y &&& 0xF8 = 0 := by
  obtain h | h | h := cmpBit_cases x y <;> rw [h] <;> rfl

/-- Under either policy CMP's new flags keep bits 7 to 3 clear (R35). -/
theorem cmpFlags_reserved (policy : CmpFlagsPolicy) {old bit : Byte} (hold : old &&& 0xF8 = 0)
    (hbit : bit &&& 0xF8 = 0) : cmpFlags policy old bit &&& 0xF8 = 0 := by
  cases policy with
  | clearThenSet => exact hbit
  | orIn => rw [cmpFlags, BitVec.and_or_distrib_right, hold, hbit]; rfl

/-! ### The parts of the invariant that an effect keeps -/

section
variable {i : Instr} {s t : State}

theorem Effect.mem_wf (h : Effect i s t) (hwf : s.mem.wf) : t.mem.wf := by
  obtain hmem | ⟨-, v, hmem⟩ := h.mem
  · exact hmem ▸ hwf
  · exact hmem ▸ State.writeMem_wf s.pushAddr v hwf

/-- FL changes by CMP alone (R33), which writes the bit of a comparison under the policy (R176). -/
theorem Effect.fl (h : Effect i s t) :
    t.fl = s.fl ∨ ∃ x y, t.fl = cmpFlags s.cfg.cmpFlags s.fl (cmpBit x y) := by
  cases i with
  | cmp => obtain ⟨-, -, rfl⟩ := h; exact .inr ⟨_, _, rfl⟩
  | hlt | ret => obtain rfl := h; exact .inl rfl
  | ldi | prn | push | pop | call => obtain ⟨-, rfl⟩ := h; exact .inl rfl
  | jmp | jeq | jne | jgt | jlt | jle | jge => obtain ⟨p, rfl⟩ := h; exact .inl rfl
  | add | mul => obtain ⟨-, -, rfl⟩ := h; exact .inl rfl

/-- An effect keeps the invariant: nothing but HLT touches the run state, so no fault record appears. -/
theorem Effect.inv (h : Effect i s t) (hinv : s.Inv) (hrun : s.run = .running) : t.Inv where
  memWf := h.mem_wf hinv.memWf
  flReserved := by
    obtain hfl | ⟨x, y, hfl⟩ := h.fl
    · exact hfl ▸ hinv.flReserved
    · exact hfl ▸ cmpFlags_reserved _ hinv.flReserved (cmpBit_reserved x y)
  flOneBit := by
    intro hpolicy
    rw [h.cfg] at hpolicy
    obtain hfl | ⟨x, y, hfl⟩ := h.fl
    · exact hfl ▸ hinv.flOneBit hpolicy
    · rw [hfl, hpolicy]
      exact cmpBit_mem x y
  record := by
    intro record hfaulted
    obtain ⟨-, hrun'⟩ | ⟨-, hrun'⟩ := h.run <;> simp [hfaulted, hrun] at hrun'

end

/-! ### Fault entry -/

/-- What a cause claims of the three bytes of its record (R201, R204, R206). -/
def CauseApplies (s : State) : Cause → Prop
  | .illegalOpcode => s.cfg.unknownOpcode = .strict ∧ s.fetchOp ∉ opcodes
  | .illegalRegister => ∃ i, decode s.fetchOp s.fetchO1 s.fetchO2 = .ok i ∧ i.wellFormed = false

/-- The record of a fault describes the state the fault leads to, since nothing but `run` changes (R203). -/
theorem recordDescribes_raiseFault {s : State} {c : Cause} (hcause : CauseApplies s c) :
    RecordDescribes { cause := c, addr := s.pc, op := s.fetchOp, o1 := s.fetchO1, o2 := s.fetchO2 }
      (s.raiseFault c) where
  addr := rfl
  op := rfl
  o1 := rfl
  o2 := rfl
  cause := by
    cases c with
    | illegalOpcode => exact ⟨hcause.1, decode_of_notMem _ _ hcause.2⟩
    | illegalRegister => exact hcause

theorem State.Inv.raiseFault {s : State} {c : Cause} (hinv : s.Inv) (hcause : CauseApplies s c) :
    (s.raiseFault c).Inv where
  memWf := hinv.memWf
  flReserved := hinv.flReserved
  flOneBit := hinv.flOneBit
  record := by
    intro record hrun
    cases hrun
    exact recordDescribes_raiseFault hcause

/-- Settles O35: an effect writes no record, a fault writes a true one, and a skipped byte moves pc on a core that holds
none. -/
theorem stepKeepsTheInvariant : Obligations.StepKeepsTheInvariant := by
  intro s t hinv h
  have hrun := run_of_step h
  cases stepOutcome h with
  | ran i hdecode hwf effect => exact effect.inv hinv hrun
  | illegalRegister i hdecode hwf ht => exact ht ▸ hinv.raiseFault ⟨i, hdecode, hwf⟩
  | illegalOpcode hop hpolicy ht => exact ht ▸ hinv.raiseFault ⟨hpolicy, hop⟩
  | skipped hop hpolicy ht =>
    subst ht
    exact ⟨hinv.memWf, hinv.flReserved, hinv.flOneBit, fun record hfaulted => nomatch hrun.symm.trans hfaulted⟩

/-! ### Reset, load, and every later state -/

/-- Settles O36: reset memory is the empty list, FL is zero and the core is running. -/
theorem resetMeetsTheInvariant : Obligations.ResetMeetsTheInvariant where
  memWf := State.reset_mem_wf
  flReserved := rfl
  flOneBit _ := List.mem_cons_self
  record _ hrun := nomatch hrun

/-- Storing bytes changes memory alone. -/
theorem State.writeBytes_eq (s : State) (a : Byte) (bytes : List Byte) :
    s.writeBytes a bytes = { s with mem := (s.writeBytes a bytes).mem } := by
  induction bytes generalizing s a with
  | nil => rfl
  | cons v bytes ih => exact ih (s.writeMem a v) (a + 1)

theorem loadImage_applyReset_inv (s : State) (image : List Byte) : (s.applyReset.loadImage image).Inv := by
  have hwf := State.loadImage_wf image s.applyReset_wf
  rw [State.loadImage, State.writeBytes_eq]
  exact
    { memWf := hwf
      flReserved := resetMeetsTheInvariant.flReserved
      flOneBit := fun _ => resetMeetsTheInvariant.flOneBit rfl
      record := fun _ hrun => nomatch hrun }

/-- The induction over a run: what holds of its first state and is kept by every step holds of all its states. -/
theorem stateAfter_induction {P : State → Prop} (hstep : ∀ s t, P s → step s = .next t → P t) (k : Nat) {s : State}
    (hs : P s) : P (stateAfter k s) := by
  induction k generalizing s with
  | zero => exact hs
  | succ k ih =>
    unfold stateAfter
    split
    · rename_i t ht
      exact ih (hstep s t hs ht)
    · exact hs
    · exact hs

/-- Settles O37: the invariant holds after the load and is kept by every step. -/
theorem everyReachableStateMeetsTheInvariant : Obligations.EveryReachableStateMeetsTheInvariant :=
  fun s image k _ => stateAfter_induction stepKeepsTheInvariant k (loadImage_applyReset_inv s image)

end Sys2Proof.Machine
end

section
/-! Proofs about HLT, PUSH, POP and CALL, and about a push followed by the pop or the return that undoes it
(40_load_output_halt.md HLT, 41_stack.md, 42_control.md R142, R146, 20_memory.md R64). -/

namespace Sys2Proof.Machine

open Sys2Proof.Stmt

/-- Settles O8: the equation of HLT. -/
theorem hltHalts : Obligations.HltHalts := ⟨encodedAs_encode .hlt, fun s => ⟨_, execHlt_eq s⟩⟩

/-! ### A push and what is read after it -/

section
variable (s : State) (v : Byte)

@[simp] theorem State.loadTop_storeTop : (s.storeTop v).loadTop = v :=
  (State.readMem_writeMem s s.sp v s.sp).trans (if_pos rfl)

@[simp] theorem State.loadTop_setPc (t : Byte) : (s.setPc t).loadTop = s.loadTop := rfl

theorem State.loadTop_eq : s.loadTop = s.readMem (s.readReg 7) := rfl

theorem State.readReg_seven_decSp : s.decSp.readReg 7 = s.readReg 7 - 1 :=
  (State.readReg_decSp s 7).trans (if_pos rfl)

theorem State.readReg_decSp_of_ne {q : Fin 8} (hq : q ≠ 7) : s.decSp.readReg q = s.readReg q :=
  (State.readReg_decSp s q).trans (if_neg hq)

theorem State.readReg_seven_incSp : s.incSp.readReg 7 = s.readReg 7 + 1 :=
  (State.readReg_incSp s 7).trans (if_pos rfl)

theorem State.readReg_incSp_of_ne {q : Fin 8} (hq : q ≠ 7) : s.incSp.readReg q = s.readReg q :=
  (State.readReg_incSp s q).trans (if_neg hq)

theorem State.readMem_pushAddr_pushed : (s.decSp.storeTop v).readMem s.pushAddr = v :=
  State.loadTop_storeTop s.decSp v

theorem State.readMem_pushed_of_ne {a : Byte} (ha : a ≠ s.pushAddr) :
    (s.decSp.storeTop v).readMem a = s.readMem a :=
  (State.readMem_writeMem s.decSp s.pushAddr v a).trans (if_neg ha.symm)

end

/-- The register an operand byte names is SP exactly for the byte 7. -/
theorem reg_eq_seven_iff {o : Byte} (h : o.toNat < 8) : (⟨o.toNat, h⟩ : Fin 8) = 7 ↔ o = 7 := by
  rw [Fin.ext_iff, ← BitVec.toNat_inj]
  rfl

/-- A register read after SP is decremented, by the operand byte that names it (D13). -/
theorem State.readReg_decSp_operand (s : State) {o : Byte} (h : o.toNat < 8) :
    s.decSp.readReg ⟨o.toNat, h⟩ = if o = 7 then s.readReg 7 - 1 else s.readReg ⟨o.toNat, h⟩ := by
  simp only [State.readReg_decSp, reg_eq_seven_iff h]

/-! ### PUSH, POP and CALL -/

/-- Settles O9: the equation of PUSH for each range of the operand, and the reads after a push. -/
theorem pushStoresBelowTheStackPointer : Obligations.PushStoresBelowTheStackPointer := by
  refine fun s o1 => ⟨encodedAs_encode (.push o1), execPush_of_ge s, s.pushAddr_eq, fun h => ?_⟩
  refine ⟨_, execPush_of_lt s h, rfl, s.readReg_seven_decSp, fun _ => s.readReg_decSp_of_ne, ?stored,
    fun _ => s.readMem_pushed_of_ne _, rfl, rfl, rfl, rfl⟩
  case stored => exact (s.readMem_pushAddr_pushed _).trans (s.readReg_decSp_operand h)

/-- Settles O11: the equation of CALL for each range of the operand, and the reads after a push. -/
theorem callPushesTheReturnAddress : Obligations.CallPushesTheReturnAddress := by
  refine fun s o1 => ⟨encodedAs_encode (.call o1), execCall_of_ge s, s.pushAddr_eq, fun h => ?_⟩
  exact ⟨_, execCall_of_lt s h, s.readReg_decSp_operand h, s.readReg_seven_decSp, fun _ => s.readReg_decSp_of_ne,
    s.readMem_pushAddr_pushed _, fun _ => s.readMem_pushed_of_ne _, rfl, rfl, rfl, rfl⟩

/-- Settles O10: the equation of POP for each range of the operand; the register is written before SP is incremented,
which shows for R7 alone. -/
theorem popLoadsFromTheStackPointer : Obligations.PopLoadsFromTheStackPointer := by
  refine fun s o1 => ⟨encodedAs_encode (.pop o1), execPop_of_ge s, fun h => ?_⟩
  refine ⟨_, execPop_of_lt s h, rfl, fun hne => ⟨?loaded, ?sp⟩, fun heq => ?popR7, fun q hq hval => ?frame,
    fun _ => rfl, rfl, rfl, rfl, rfl⟩
  case loaded =>
    rw [State.readReg_setPc, State.readReg_incSp_of_ne _ (mt (reg_eq_seven_iff h).1 hne), State.readReg_writeReg_self,
      State.loadTop_eq]
  case sp =>
    have hval : (7 : Fin 8).val ≠ o1.toNat := fun heq => hne (BitVec.eq_of_toNat_eq heq.symm)
    rw [State.readReg_setPc, State.readReg_seven_incSp, State.readReg_writeReg_of_ne _ _ hval]
  case popR7 =>
    rw [State.readReg_setPc, State.readReg_seven_incSp, (reg_eq_seven_iff h).2 heq, State.readReg_writeReg_self,
      State.loadTop_eq]
  case frame => rw [State.readReg_setPc, State.readReg_incSp_of_ne _ hq, State.readReg_writeReg_of_ne _ _ hval]

/-! ### A push undone -/

/-- A register that receives the value it holds. -/
theorem State.readReg_writeReg_readReg (s : State) (r q : Fin 8) :
    (s.writeReg r (s.readReg r)).readReg q = s.readReg q := by
  rw [State.readReg_writeReg]
  split
  · rename_i hrq
    rw [hrq]
  · rfl

/-- SP moved down by a push and up again. -/
theorem State.readReg_incSp_of_decSp {s t : State} (h : ∀ q, t.readReg q = s.decSp.readReg q) (q : Fin 8) :
    t.incSp.readReg q = s.readReg q := by
  by_cases hq : q = 7
  · rw [hq, State.readReg_seven_incSp, h, State.readReg_seven_decSp, BitVec.sub_add_cancel]
  · rw [State.readReg_incSp_of_ne _ hq, h, State.readReg_decSp_of_ne _ hq]

/-- Settles O38: the byte pushed is what the register holds after the decrement, so POP writes to the register the value
it has, and SP is moved back. -/
theorem pushThenPopRestoresEveryRegister : Obligations.PushThenPopRestoresEveryRegister := by
  intro s r hr
  refine ⟨_, _, execPush_of_lt s hr, execPop_of_lt _ hr, fun q => ?registers, ?_⟩
  case registers =>
    refine State.readReg_incSp_of_decSp (fun q => ?_) q
    rw [State.loadTop_setPc, State.loadTop_storeTop]
    exact State.readReg_writeReg_readReg s.decSp _ q
  rw [← State.pushAddr_eq]
  refine ⟨fun _ => s.readMem_pushed_of_ne _, rfl, fun h hne => ?_⟩
  exact (s.readMem_pushAddr_pushed _).trans ((s.readReg_decSp_operand h).trans (if_neg hne))

/-- Settles O39: RET reads the byte CALL stored, from where CALL left SP. -/
theorem retAfterCallResumesAfterTheCall : Obligations.RetAfterCallResumesAfterTheCall := by
  intro s t u o1 h hcall hsp hbyte
  cases (execCall_of_lt s h).symm.trans hcall
  refine ⟨_, execRet_eq u, ?pc, ?sp⟩
  case pc =>
    calc u.loadTop = u.readMem s.pushAddr := by rw [State.loadTop_eq, hsp]; rfl
      _ = s.pc + 2 := hbyte.trans (s.readMem_pushAddr_pushed _)
  case sp =>
    calc (u.setPc u.loadTop).incSp.readReg 7 = u.readReg 7 + 1 := State.readReg_seven_incSp _
      _ = s.readReg 7 - 1 + 1 := by rw [hsp]; exact congrArg (· + 1) s.readReg_seven_decSp
      _ = s.readReg 7 := BitVec.sub_add_cancel _ _

/-- Settles O40: the push stores at the address the next step fetches from, and HLT's byte halts a running core. -/
theorem nextFetchSeesThePushedByte : Obligations.NextFetchSeesThePushedByte := by
  intro s hrun hop h haddr
  have hlt : s.fetchO1.toNat < 8 := Nat.lt_succ_of_lt h
  have hne : s.fetchO1 ≠ 7 := fun heq => absurd h (by rw [heq]; decide)
  refine ⟨_, (step_of_opcode .push hrun hop).trans (execPush_of_lt s hlt), ?_⟩
  have hfetch : ((s.decSp.storeTop (s.decSp.readReg ⟨s.fetchO1.toNat, hlt⟩)).setPc (s.pc + 2)).fetchOp =
      s.readReg ⟨s.fetchO1.toNat, hlt⟩ :=
    calc (s.decSp.storeTop (s.decSp.readReg ⟨s.fetchO1.toNat, hlt⟩)).readMem (s.pc + 2)
        = s.decSp.readReg ⟨s.fetchO1.toNat, hlt⟩ := by
          rw [← haddr, ← State.pushAddr_eq, State.readMem_pushAddr_pushed]
      _ = s.readReg ⟨s.fetchO1.toNat, hlt⟩ := (s.readReg_decSp_operand hlt).trans (if_neg hne)
  exact ⟨hfetch, fun hbyte => ⟨_, step_of_fetchOp_hlt hrun (hfetch.trans hbyte), rfl⟩⟩

end Sys2Proof.Machine
end

section
/-! Proofs about the laws the spec derives for the ALU and the flags: MUL and ADD on signed bytes, and the order a CMP
leaves in FL (43_alu.md R171, 42_control.md R161). -/

namespace Sys2Proof.Machine

open Sys2Proof.Stmt

/-! ### MUL and ADD on signed bytes -/

theorem aluMul_eq_mul (x y : Byte) : aluMul x y = x * y := by
  rw [aluMul, BitVec.ofNat_mul, BitVec.ofNat_toNat, BitVec.ofNat_toNat, BitVec.setWidth_eq, BitVec.setWidth_eq]

theorem aluAdd_eq_add (x y : Byte) : aluAdd x y = x + y := by
  rw [aluAdd, BitVec.ofNat_add, BitVec.ofNat_toNat, BitVec.ofNat_toNat, BitVec.setWidth_eq, BitVec.setWidth_eq]

theorem aluMul_eq_signed (x y : Byte) : aluMul x y = BitVec.ofInt 8 (x.toInt * y.toInt) := by
  rw [aluMul_eq_mul, BitVec.ofInt_mul, BitVec.ofInt_toInt, BitVec.ofInt_toInt]

theorem aluAdd_eq_signed (x y : Byte) : aluAdd x y = BitVec.ofInt 8 (x.toInt + y.toInt) := by
  rw [aluAdd_eq_add, BitVec.ofInt_add, BitVec.ofInt_toInt, BitVec.ofInt_toInt]

/-- Settles O18: the byte arithmetic of the ALU is that of bit vectors, which is the signed one too. -/
theorem mulAndAddAreSignedToo : Obligations.MulAndAddAreSignedToo := by
  refine fun s o1 o2 h1 h2 => ⟨⟨_, execMul_of_lt s h1 h2, ?mul⟩, ⟨_, execAdd_of_lt s h1 h2, ?add⟩⟩
  case mul => rw [State.readReg_setPc, State.readReg_writeReg_self, aluMul_eq_signed]
  case add => rw [State.readReg_setPc, State.readReg_writeReg_self, aluAdd_eq_signed]

/-! ### The conditional jumps after a CMP -/

section
variable {mk : Byte → Instr} (cond : Byte → Bool) {t : State} {fl : Byte}

/-- A conditional jump whose condition holds of FL does what JMP does (R150 to R160). -/
theorem taken_of_cond (hexec : ∀ r, exec (mk r) t = condJump (cond t.fl) r t) (hfl : t.fl = fl)
    (hcond : cond fl = true) (r : Byte) : exec (mk r) t = exec (.jmp r) t := by
  rw [hfl, hcond] at hexec
  exact hexec r

/-- A conditional jump whose condition fails falls through (R141). -/
theorem falls_of_cond (hexec : ∀ r, exec (mk r) t = condJump (cond t.fl) r t) (hfl : t.fl = fl)
    (hcond : cond fl = false) (r : Byte) (hr : r.toNat < 8) : exec (mk r) t = .next { t with pc := t.pc + 2 } := by
  rw [hfl, hcond] at hexec
  exact (hexec r).trans (withReg_of_lt hr)

end

theorem fl_of_cmp {s t : State} {o1 o2 : Byte} (hpolicy : s.cfg.cmpFlags = .clearThenSet) (h1 : o1.toNat < 8)
    (h2 : o2.toNat < 8) (h : exec (.cmp o1 o2) s = .next t) :
    t.fl = cmpBit (s.readReg ⟨o1.toNat, h1⟩) (s.readReg ⟨o2.toNat, h2⟩) := by
  cases (execCmp_of_lt s h1 h2).symm.trans h
  rw [State.setPc_fl, State.setFl_fl, hpolicy]
  rfl

/-- Settles O19: FL holds the one bit of the order, and each jump's condition is read off that bit. -/
theorem afterCmpExactlyOneOrderHolds : Obligations.AfterCmpExactlyOneOrderHolds := by
  intro s t o1 o2 hpolicy h1 h2 h taken falls
  have hfl := fl_of_cmp hpolicy h1 h2 h
  obtain horder | horder | horder := cmpBit_cases (s.readReg ⟨o1.toNat, h1⟩) (s.readReg ⟨o2.toNat, h2⟩) <;>
    rw [horder] at hfl
  · refine .inl ⟨?jgt, ?jlt, ?jeq, ?jge, ?jle, ?jne⟩
    case jgt => exact fun r _ => taken_of_cond condGt (fun _ => rfl) hfl rfl r
    case jlt => exact falls_of_cond condLt (fun _ => rfl) hfl rfl
    case jeq => exact falls_of_cond condEq (fun _ => rfl) hfl rfl
    case jge => exact fun r _ => taken_of_cond condGe (fun _ => rfl) hfl rfl r
    case jle => exact falls_of_cond condLe (fun _ => rfl) hfl rfl
    case jne => exact fun r _ => taken_of_cond condNe (fun _ => rfl) hfl rfl r
  · refine .inr (.inl ⟨?jgt, ?jlt, ?jeq, ?jge, ?jle, ?jne⟩)
    case jgt => exact falls_of_cond condGt (fun _ => rfl) hfl rfl
    case jlt => exact fun r _ => taken_of_cond condLt (fun _ => rfl) hfl rfl r
    case jeq => exact falls_of_cond condEq (fun _ => rfl) hfl rfl
    case jge => exact falls_of_cond condGe (fun _ => rfl) hfl rfl
    case jle => exact fun r _ => taken_of_cond condLe (fun _ => rfl) hfl rfl r
    case jne => exact fun r _ => taken_of_cond condNe (fun _ => rfl) hfl rfl r
  · refine .inr (.inr ⟨?jgt, ?jlt, ?jeq, ?jge, ?jle, ?jne⟩)
    case jgt => exact falls_of_cond condGt (fun _ => rfl) hfl rfl
    case jlt => exact falls_of_cond condLt (fun _ => rfl) hfl rfl
    case jeq => exact fun r _ => taken_of_cond condEq (fun _ => rfl) hfl rfl r
    case jge => exact fun r _ => taken_of_cond condGe (fun _ => rfl) hfl rfl r
    case jle => exact fun r _ => taken_of_cond condLe (fun _ => rfl) hfl rfl r
    case jne => exact falls_of_cond condNe (fun _ => rfl) hfl rfl

end Sys2Proof.Machine
end

section
/-! Proofs about memory as data, the load port and the block around the core (20_memory.md section 1,
70_reset_and_hazards.md R232, R236). -/

namespace Sys2Proof.Machine

/-! ### Canonical memories -/

theorem Memory.get_cons_self (k : Nat) (v : Byte) (m : Memory) : Memory.get ((k, v) :: m) k = v := if_pos rfl

theorem Memory.get_cons_of_ne {k a : Nat} (v : Byte) (m : Memory) (h : k ≠ a) :
    Memory.get ((k, v) :: m) a = m.get a := if_neg h

theorem Memory.get_of_mem {m : Memory} (hm : m.Pairwise fun c d => c.1 < d.1) {c : Host.Cell} (hc : c ∈ m) :
    m.get c.1 = c.2 := by
  induction m with
  | nil => cases hc
  | cons d m ih =>
    obtain ⟨hd, hm⟩ := List.pairwise_cons.1 hm
    obtain rfl | hc := List.mem_cons.1 hc
    · exact Memory.get_cons_self _ _ _
    · exact (Memory.get_cons_of_ne _ _ (hd c hc).ne).trans (ih hm hc)

/-- An address that reads as anything but the reset contents is listed. -/
theorem Memory.mem_of_get_ne {m : Memory} {a : Nat} (h : m.get a ≠ unlistedByte) : (a, m.get a) ∈ m := by
  induction m with
  | nil => exact absurd rfl h
  | cons d m ih =>
    obtain ⟨k, v⟩ := d
    by_cases hk : k = a
    · subst hk
      rw [Memory.get_cons_self]
      exact List.mem_cons_self
    · rw [Memory.get_cons_of_ne _ _ hk] at h ⊢
      exact List.mem_cons_of_mem _ (ih h)

/-- The cells of a canonical memory are the addresses that do not read as the reset contents, each with what it reads
as. -/
theorem Memory.mem_iff {m : Memory} (hm : m.wf) (c : Host.Cell) :
    c ∈ m ↔ c.1 < 256 ∧ c.2 ≠ unlistedByte ∧ m.get c.1 = c.2 := by
  refine ⟨fun hc => ⟨(hm.2 c hc).1, (hm.2 c hc).2, Memory.get_of_mem hm.1 hc⟩, fun ⟨_, hne, hget⟩ => ?_⟩
  rw [← hget] at hne
  have hmem := Memory.mem_of_get_ne hne
  rwa [hget] at hmem

/-- Settles O44: two canonical memories that read alike have the same cells, in the same order. -/
theorem canonicalMemoriesReadingAlikeAreEqual : Obligations.CanonicalMemoriesReadingAlikeAreEqual := by
  intro m n hm hn hread
  have hget (a : Nat) (ha : a < 256) : m.get a = n.get a := by
    have hbyte := hread (BitVec.ofNat 8 a)
    rwa [BitVec.toNat_ofNat, Nat.mod_eq_of_lt ha] at hbyte
  have hcells (c : Host.Cell) : c ∈ m ↔ c ∈ n := by
    rw [Memory.mem_iff hm, Memory.mem_iff hn]
    exact and_congr_right fun hc => by rw [hget c.1 hc]
  have hnodup {l : Memory} (hl : l.wf) : l.Nodup := hl.1.imp fun hlt heq => hlt.ne (congrArg Prod.fst heq)
  have hperm : m.Perm n := (List.perm_ext_iff_of_nodup (hnodup hm) (hnodup hn)).2 hcells
  exact hperm.eq_of_pairwise (fun _ _ _ _ h1 h2 => absurd h1 (Nat.lt_asymm h2)) hm.1 hn.1

/-! ### Storing an image -/

/-- What is read after `bytes` are stored from address `a` on: no byte is stored twice, since there are at most 256 of
them (R53). -/
theorem State.readMem_writeBytes (s : State) (a b : Byte) {bytes : List Byte} (hlength : bytes.length ≤ 256) :
    (s.writeBytes a bytes).readMem b = bytes.getD (b - a).toNat (s.readMem b) := by
  induction bytes generalizing s a with
  | nil => rfl
  | cons v bytes ih =>
    rw [List.length_cons] at hlength
    have hstored : ((s.writeMem a v).writeBytes (a + 1) bytes).readMem b =
        bytes.getD (b - (a + 1)).toNat ((s.writeMem a v).readMem b) := ih _ _ (by omega)
    refine hstored.trans ?_
    rw [State.readMem_writeMem]
    by_cases hab : a = b
    · have hlast : bytes.length ≤ (b - (a + 1)).toNat := by bv_omega
      have hfirst : (b - a).toNat = 0 := by bv_omega
      rw [if_pos hab, List.getD_eq_default _ _ hlast, hfirst, List.getD_cons_zero]
    · have hnext : (b - a).toNat = (b - (a + 1)).toNat + 1 := by bv_omega
      rw [if_neg hab, hnext, List.getD_cons_succ]

/-! ### The load port -/

section
variable {b : Block} {image : List Byte}

theorem Block.load_of_long (h : 256 < image.length) : b.load image = .refused .imageTooLong := if_pos h

theorem Block.load_of_not_fresh (hlength : image.length ≤ 256) (hfresh : b.fresh = false) :
    b.load image = .refused .coreNotFresh := by
  rw [Block.load, if_neg (Nat.not_lt.2 hlength), hfresh]
  rfl

theorem Block.load_of_fresh (hlength : image.length ≤ 256) (hfresh : b.fresh = true) :
    b.load image = .next { b with core := b.core.loadImage image } := by
  rw [Block.load, if_neg (Nat.not_lt.2 hlength), if_pos hfresh]

theorem Block.fresh_iff : b.fresh = true ↔ b.stepped = false ∧ b.core = b.core.applyReset := by
  simp only [Block.fresh, Bool.and_eq_true, Bool.not_eq_true', beq_iff_eq]

theorem Block.fresh_reset : b.reset.fresh = true := Block.fresh_iff.2 ⟨rfl, rfl⟩

theorem Block.not_fresh_of_stepped (h : b.stepped = true) : b.fresh = false := by
  simp only [Block.fresh, h, Bool.not_true, Bool.false_and]

theorem Block.stepped_of_step {c : Block} (h : b.step = .next c) : c.stepped = true := by
  unfold Block.step at h
  split at h <;> cases h
  rfl

end

/-- Settles O42: the three cases of the port; an image on a fresh core is stored over zeroes. -/
theorem loadPlacesTheImageOrIsRefused : Obligations.LoadPlacesTheImageOrIsRefused := by
  refine fun b image => ⟨Block.load_of_long, Block.load_of_not_fresh, fun hlength hfresh => ?_⟩
  obtain ⟨hstepped, hcore⟩ := Block.fresh_iff.1 hfresh
  refine ⟨_, Block.load_of_fresh hlength hfresh, hstepped, fun a => ?contents, ?frame⟩
  case contents =>
    have hzero : b.core.readMem a = 0x00 := by rw [hcore, State.readMem_applyReset, State.readMem_reset]
    exact (State.readMem_writeBytes b.core 0 a hlength).trans (by rw [sub_zero, hzero])
  case frame =>
    rw [State.loadImage, State.writeBytes_eq]

/-- Settles O43: a step marks the block as no longer fresh, and a reset makes it fresh. -/
theorem loadNeedsAResetAfterAStep : Obligations.LoadNeedsAResetAfterAStep := fun _ _ _ hstep hlength =>
  ⟨Block.load_of_not_fresh hlength (Block.not_fresh_of_stepped (Block.stepped_of_step hstep)),
    _, Block.load_of_fresh hlength Block.fresh_reset⟩

end Sys2Proof.Machine
end

section
/-! Proofs about runs: two that never end, and the ends a run can have (42_control.md R148, 90_conflicts.md C3,
70_reset_and_hazards.md R240, R242). -/

namespace Sys2Proof.Machine

/-! ### One state executed for ever -/

theorem stateAfter_succ {s t : State} (h : step s = .next t) (k : Nat) : stateAfter (k + 1) s = stateAfter k t := by
  simp only [stateAfter, h]

theorem stateAfter_of_step_self {s : State} (h : step s = .next s) (k : Nat) : stateAfter k s = s := by
  induction k with
  | zero => rfl
  | succ k ih => rw [stateAfter_succ h, ih]

/-- Settles O45: the jump sets pc to what it is, so the step leads to the same running state. -/
theorem jumpToItselfNeverEnds : Obligations.JumpToItselfNeverEnds := by
  intro s hrun hop h hself k
  have hstep : step s = .next s := by
    refine (step_of_opcode .jmp hrun hop).trans ((execJmp_of_lt s h).trans ?_)
    rw [hself]
    rfl
  rw [stateAfter_of_step_self hstep, hrun]

/-- Settles O46: the byte's generic advance leaves pc where it is, so the step leads to the same state. -/
theorem permissiveUnknownByteWithBitFourHangs : Obligations.PermissiveUnknownByteWithBitFourHangs := by
  intro s hrun hpolicy hop hbit
  refine stateAfter_of_step_self ?_
  rw [step_of_notMem hrun hop, execUnknownOpcode_of_permissive _ hpolicy, State.genericAdvance, setsPc, if_pos hbit]

/-! ### The ends of a run -/

/-- A core that has stopped running stays as it is (R80). -/
theorem stateAfter_of_stopped {s : State} (h : s.run ≠ .running) (k : Nat) : stateAfter k s = s := by
  cases k with
  | zero => rfl
  | succ k =>
    unfold stateAfter
    split
    · rename_i hstep
      exact absurd (run_of_step hstep) h
    · rfl
    · rfl

/-- A running core takes a step, so a run of one step more is the run from the next state. -/
theorem stateAfter_add (j k : Nat) (s : State) : stateAfter (j + k) s = stateAfter k (stateAfter j s) := by
  induction j generalizing s with
  | zero => rw [Nat.zero_add]; rfl
  | succ j ih =>
    by_cases hrun : s.run = .running
    · obtain ⟨t, hstep⟩ := runningCoreAlwaysTakesAStep.2 s hrun
      rw [Nat.succ_add, stateAfter_succ hstep, stateAfter_succ hstep, ih]
    · simp only [stateAfter_of_stopped hrun]

theorem stateAfter_eq_of_le {s : State} {j k : Nat} (hjk : j ≤ k) (h : (stateAfter j s).run ≠ .running) :
    stateAfter k s = stateAfter j s := by
  obtain ⟨d, rfl⟩ := Nat.exists_eq_add_of_le hjk
  rw [stateAfter_add, stateAfter_of_stopped h]

/-- A run that has stopped running at two times has stopped in one state. -/
theorem stateAfter_eq_of_stopped {s : State} {j k : Nat} (hj : (stateAfter j s).run ≠ .running)
    (hk : (stateAfter k s).run ≠ .running) : stateAfter j s = stateAfter k s := by
  obtain hjk | hkj := Nat.le_total j k
  · exact (stateAfter_eq_of_le hjk hj).symm
  · exact stateAfter_eq_of_le hkj hk

section
variable {s : State}

theorem not_halts_and_endsFaulted : ¬ (Halts s ∧ EndsFaulted s) := by
  rintro ⟨⟨j, hj⟩, k, record, hk⟩
  have heq : stateAfter j s = stateAfter k s := stateAfter_eq_of_stopped (by simp [hj]) (by simp [hk])
  cases hj.symm.trans ((congrArg State.run heq).trans hk)

theorem not_halts_and_neverEnds : ¬ (Halts s ∧ NeverEnds s) := by
  rintro ⟨⟨j, hj⟩, hnever⟩
  cases hj.symm.trans (hnever j)

theorem not_endsFaulted_and_neverEnds : ¬ (EndsFaulted s ∧ NeverEnds s) := by
  rintro ⟨⟨k, record, hk⟩, hnever⟩
  cases hk.symm.trans (hnever k)

theorem halts_or_endsFaulted_or_neverEnds : Halts s ∨ EndsFaulted s ∨ NeverEnds s := by
  by_cases hnever : NeverEnds s
  · exact .inr (.inr hnever)
  · obtain ⟨k, hk⟩ := not_forall.1 hnever
    cases hrun : (stateAfter k s).run with
    | running => exact absurd hrun hk
    | halted => exact .inl ⟨k, hrun⟩
    | faulted record => exact .inr (.inl ⟨k, record, hrun⟩)

theorem safeRun_iff : SafeRun s ↔ Halts s ∨ NeverEnds s := by
  refine ⟨fun hsafe => ?_, ?_⟩
  · obtain hhalts | hfaulted | hnever := halts_or_endsFaulted_or_neverEnds (s := s)
    · exact .inl hhalts
    · exact absurd hfaulted hsafe
    · exact .inr hnever
  · rintro (hhalts | hnever) hfaulted
    · exact not_halts_and_endsFaulted ⟨hhalts, hfaulted⟩
    · exact not_endsFaulted_and_neverEnds ⟨hfaulted, hnever⟩

end

/-- Settles O47: a stopped core stays stopped in one state, and a run state is one of three. -/
theorem everyRunHasExactlyOneEnd : Obligations.EveryRunHasExactlyOneEnd := fun _ =>
  ⟨halts_or_endsFaulted_or_neverEnds, safeRun_iff, not_halts_and_endsFaulted, not_halts_and_neverEnds,
    not_endsFaulted_and_neverEnds, fun _ _ => stateAfter_eq_of_le⟩

end Sys2Proof.Machine
end

section
/-! Proofs about text: bytes in decimal, the text of the output stream, and splitting a text (10_state.md
R41). -/

namespace Sys2Proof.Machine

/-! ### Bytes in decimal -/

theorem digitValue_digitChar {n : Nat} (hn : n < 10) : digitValue (digitChar n) = some n := by
  revert n
  decide

theorem readDigits_digitChar (acc : Nat) {n : Nat} (hn : n < 10) (cs : List Char) :
    readDigits 10 acc (digitChar n :: cs) = readDigits 10 (acc * 10 + n) cs := by
  simp only [readDigits, digitValue_digitChar hn, if_pos hn]

/-- The digits of a byte are read back as its value: one, two or three of them. -/
theorem readDigits_decimal (v : Byte) : readDigits 10 0 (decimal v) = some v.toNat := by
  have hv := v.isLt
  unfold decimal
  dsimp only
  split
  · rw [readDigits_digitChar _ ‹_›, readDigits, Nat.zero_mul, Nat.zero_add]
  · split
    · rw [readDigits_digitChar _ (by omega), readDigits_digitChar _ (by omega), readDigits]
      congr 1
      omega
    · rw [readDigits_digitChar _ (by omega), readDigits_digitChar _ (by omega), readDigits_digitChar _ (by omega),
        readDigits]
      congr 1
      omega

theorem exists_digitChar_of_mem_decimal {c : Char} {v : Byte} (hc : c ∈ decimal v) : ∃ n < 10, c = digitChar n := by
  have hv := v.isLt
  unfold decimal at hc
  dsimp only at hc
  split at hc
  · exact ⟨_, ‹_›, List.mem_singleton.1 hc⟩
  · split at hc
    · simp only [List.mem_cons, List.not_mem_nil, or_false] at hc
      obtain rfl | rfl := hc
      · exact ⟨_, by omega, rfl⟩
      · exact ⟨_, by omega, rfl⟩
    · simp only [List.mem_cons, List.not_mem_nil, or_false] at hc
      obtain rfl | rfl | rfl := hc
      · exact ⟨_, by omega, rfl⟩
      · exact ⟨_, by omega, rfl⟩
      · exact ⟨_, by omega, rfl⟩

/-- What holds of the ten digits holds of every character of a byte in decimal. -/
theorem forall_mem_decimal {p : Char → Prop} (hp : ∀ n < 10, p (digitChar n)) (v : Byte) : ∀ c ∈ decimal v, p c := by
  intro c hc
  obtain ⟨n, hn, rfl⟩ := exists_digitChar_of_mem_decimal hc
  exact hp n hn

theorem decimal_ne_nil (v : Byte) : decimal v ≠ [] := by
  unfold decimal
  dsimp only
  split
  · exact List.cons_ne_nil _ _
  · split <;> exact List.cons_ne_nil _ _

/-- Reading in base 10 undoes writing in decimal. -/
theorem readByteIn_decimal (v : Byte) : readByteIn 10 (decimal v) = some v := by
  rw [readByteIn, if_neg (decimal_ne_nil v), readDigits_decimal]
  simp only [v.isLt, if_true, BitVec.ofNat_toNat, BitVec.setWidth_eq]

theorem decimal_injective : Function.Injective decimal := fun v w h =>
  Option.some.inj <| by rw [← readByteIn_decimal v, h, readByteIn_decimal]

/-! ### Splitting a text -/

section
variable {p : Char → Bool} {w : List Char}

theorem splitText_append_cons {c : Char} (hw : ∀ d ∈ w, p d = false) (hc : p c = true) (cs : List Char) :
    splitText p (w ++ c :: cs) = w :: splitText p cs := by
  induction w with
  | nil => simp only [List.nil_append, splitText, hc, if_true]
  | cons d w ih =>
    obtain ⟨hd, hw⟩ := List.forall_mem_cons.1 hw
    simp only [List.cons_append, splitText, hd, ih hw, Bool.false_eq_true, if_false]

theorem splitText_of_forall_not (hw : ∀ d ∈ w, p d = false) : splitText p w = [w] := by
  induction w with
  | nil => rfl
  | cons d w ih =>
    obtain ⟨hd, hw⟩ := List.forall_mem_cons.1 hw
    simp only [splitText, hd, ih hw, Bool.false_eq_true, if_false]

/-- Pieces joined by a separator that none of them holds are split into the pieces again. -/
theorem splitText_join {c : Char} (hc : p c = true) {ws : List (List Char)} (hw : ∀ d ∈ w, p d = false)
    (hws : ∀ w ∈ ws, ∀ d ∈ w, p d = false) : splitText p (w ++ ws.flatMap fun w => c :: w) = w :: ws := by
  induction ws generalizing w with
  | nil => rw [List.flatMap_nil, List.append_nil, splitText_of_forall_not hw]
  | cons w' ws ih =>
    obtain ⟨hw', hws⟩ := List.forall_mem_cons.1 hws
    rw [List.flatMap_cons, List.cons_append, splitText_append_cons hw hc, ih hw' hws]

end

/-! ### The text of the output stream -/

/-- A newline ends each byte's text and stands in none, so the lines of the text are the bytes in decimal. -/
theorem splitText_outText (out : List Byte) : splitText (· == '\n') (outText out) = out.map decimal ++ [[]] := by
  induction out with
  | nil => rfl
  | cons v out ih =>
    have hdigits : ∀ c ∈ decimal v, (c == '\n') = false := forall_mem_decimal (by decide) v
    have htext : outText (v :: out) = decimal v ++ '\n' :: outText out := by
      simp only [outText, List.flatMap_cons, List.append_assoc, List.singleton_append]
    rw [htext, splitText_append_cons hdigits rfl, ih, List.map_cons, List.cons_append]

/-- Settles O49: equal texts have equal lines, and a line determines its byte. -/
theorem outputTextDeterminesTheStream : Obligations.OutputTextDeterminesTheStream := by
  intro xs ys h
  have hlines : xs.map decimal ++ [[]] = ys.map decimal ++ [[]] := by
    rw [← splitText_outText, h, splitText_outText]
  exact List.map_injective_iff.2 decimal_injective (List.append_cancel_right hlines)

end Sys2Proof.Machine
end

section
/-! Proofs about assembly text: an instruction written is read back (30_encoding.md R84). -/

namespace Sys2Proof.Machine

/-! ### Texts without blanks -/

/-- A text that no trimming shortens and no blank divides. -/
structure Solid (w : List Char) : Prop where
  ne_nil : w ≠ []
  noBlank : ∀ c ∈ w, isBlank c = false

theorem Solid.reverse {w : List Char} (h : Solid w) : Solid w.reverse where
  ne_nil := mt List.reverse_eq_nil_iff.1 h.ne_nil
  noBlank c hc := h.noBlank c (List.mem_reverse.1 hc)

theorem dropWhile_isBlank_append {w : List Char} (h : Solid w) (cs : List Char) :
    (w ++ cs).dropWhile isBlank = w ++ cs := by
  obtain ⟨c, w, rfl⟩ := List.exists_cons_of_ne_nil h.ne_nil
  exact List.dropWhile_cons_of_neg (by simp [h.noBlank c List.mem_cons_self])

/-- A text with a blank-free piece at each end is trimmed already. -/
theorem trimText_eq_self {t w cs ds v : List Char} (hw : Solid w) (hv : Solid v) (hstart : t = w ++ cs)
    (hend : t = ds ++ v) : trimText t = t := by
  have hleft : t.dropWhile isBlank = t := hstart ▸ dropWhile_isBlank_append hw cs
  have hright : t.reverse.dropWhile isBlank = t.reverse := by
    rw [hend, List.reverse_append]
    exact dropWhile_isBlank_append hv.reverse _
  rw [trimText, hleft, hright, List.reverse_reverse]

theorem Solid.trimText_eq {w : List Char} (h : Solid w) : trimText w = w :=
  trimText_eq_self h h (List.append_nil w).symm (List.nil_append w).symm

theorem trimText_blank_cons (t : List Char) : trimText (' ' :: t) = trimText t := rfl

/-! ### The name of an instruction -/

theorem any_isBlank_mnemonicText (m : Mnemonic) : (mnemonicText m).any isBlank = false := by
  cases m <;> rfl

theorem solid_mnemonicText (m : Mnemonic) : Solid (mnemonicText m) where
  ne_nil := by cases m <;> exact List.cons_ne_nil _ _
  noBlank c hc := by simpa using List.any_eq_false.1 (any_isBlank_mnemonicText m) c hc

theorem find?_mnemonicText (m : Mnemonic) :
    Mnemonic.all.find? (fun m' => mnemonicText m' == mnemonicText m) = some m := by
  cases m <;> decide

/-- A trimmed text that begins with a name and no other letter is an instruction of that name, on the pieces between
the commas of the rest. -/
theorem parseInstr_mnemonicText_append (m : Mnemonic) {cs : List Char}
    (htrim : trimText (mnemonicText m ++ cs) = mnemonicText m ++ cs)
    (hcs : cs.takeWhile (fun c => !isBlank c) = []) :
    parseInstr (mnemonicText m ++ cs) =
      instrOfParts m (if trimText cs = [] then [] else (splitText (· == ',') (trimText cs)).map trimText) := by
  have hname : ∀ c ∈ mnemonicText m, (!isBlank c) = true := fun c hc => by
    rw [(solid_mnemonicText m).noBlank c hc, Bool.not_false]
  have hrest : cs.dropWhile (fun c => !isBlank c) = cs := by
    simpa [hcs] using List.takeWhile_append_dropWhile (p := fun c => !isBlank c) (l := cs)
  have htake : (mnemonicText m ++ cs).takeWhile (fun c => !isBlank c) = mnemonicText m := by
    rw [List.takeWhile_append_of_pos hname, hcs, List.append_nil]
  have hdrop : (mnemonicText m ++ cs).dropWhile (fun c => !isBlank c) = cs := by
    rw [List.dropWhile_append_of_pos hname, hrest]
  simp only [parseInstr, htrim, htake, hdrop, find?_mnemonicText]

/-- A name alone is read as the instruction of that name without operands. -/
theorem parseInstr_mnemonicText (m : Mnemonic) : parseInstr (mnemonicText m) = instrOfParts m [] := by
  have h := parseInstr_mnemonicText_append m (cs := [])
    (by rw [List.append_nil, (solid_mnemonicText m).trimText_eq]) rfl
  rwa [List.append_nil] at h

/-- A name, a blank and operands between commas are read as the instruction of that name on those operands. -/
theorem parseInstr_mnemonicText_operands (m : Mnemonic) {o : List Char} {os : List (List Char)}
    (hsolid : ∀ w ∈ o :: os, Solid w) (hcomma : ∀ w ∈ o :: os, ∀ c ∈ w, (c == ',') = false) :
    parseInstr (mnemonicText m ++ ' ' :: (o ++ os.flatMap fun w => ',' :: w)) = instrOfParts m (o :: os) := by
  obtain ⟨ho, hos⟩ := List.forall_mem_cons.1 hsolid
  obtain ⟨hco, hcos⟩ := List.forall_mem_cons.1 hcomma
  have hsplit := splitText_join (p := (· == ',')) (c := ',') rfl hco hcos
  have hpieces : (o :: os).map trimText = o :: os :=
    (List.map_congr_left fun w hw => (hsolid w hw).trimText_eq).trans (List.map_id _)
  have hrest : Solid (o ++ os.flatMap fun w => ',' :: w) := by
    refine ⟨List.append_ne_nil_of_left_ne_nil ho.ne_nil _, List.forall_mem_append.2 ⟨ho.noBlank, fun c hc => ?_⟩⟩
    obtain ⟨w, hw, hc⟩ := List.mem_flatMap.1 hc
    obtain rfl | hc := List.mem_cons.1 hc
    · rfl
    · exact (hos w hw).noBlank c hc
  have htrim := trimText_eq_self (solid_mnemonicText m) hrest rfl (List.append_cons (mnemonicText m) ' ' _)
  rw [parseInstr_mnemonicText_append m htrim rfl, trimText_blank_cons, hrest.trimText_eq, if_neg hrest.ne_nil, hsplit,
    hpieces]

/-! ### The operands of an instruction -/

theorem mem_operandTexts {i : Instr} {w : List Char} (h : w ∈ operandTexts i) :
    (∃ o, w = regText o) ∨ ∃ v, w = decimal v := by
  cases i with
  | ldi reg imm =>
    simp only [operandTexts, List.mem_cons, List.not_mem_nil, or_false] at h
    exact h.imp (⟨reg, ·⟩) (⟨imm, ·⟩)
  | hlt | prn | push | pop | call | ret | jmp | jeq | jne | jgt | jlt | jle | jge | add | mul | cmp =>
    obtain ⟨o, -, rfl⟩ := List.mem_map.1 h
    exact .inl ⟨o, rfl⟩

/-- What holds of `R` and of the ten digits holds of every character of an operand. -/
theorem forall_mem_operandTexts {p : Char → Prop} (hR : p 'R') (hdigits : ∀ n < 10, p (digitChar n)) {i : Instr}
    {w : List Char} (hw : w ∈ operandTexts i) : ∀ c ∈ w, p c := by
  obtain ⟨o, rfl⟩ | ⟨v, rfl⟩ := mem_operandTexts hw
  · exact List.forall_mem_cons.2 ⟨hR, forall_mem_decimal hdigits o⟩
  · exact forall_mem_decimal hdigits v

theorem solid_of_mem_operandTexts {i : Instr} {w : List Char} (hw : w ∈ operandTexts i) : Solid w where
  ne_nil := by
    obtain ⟨o, rfl⟩ | ⟨v, rfl⟩ := mem_operandTexts hw
    · exact List.cons_ne_nil _ _
    · exact decimal_ne_nil v
  noBlank := forall_mem_operandTexts (by decide) (by decide) hw

theorem readRegister_regText {o : Byte} (h : o.toNat < 8) : readRegister (regText o) = some o := by
  have hdigit : o.toNat < 10 := by omega
  have htext : regText o = ['R', digitChar o.toNat] := by rw [regText, decimal, if_pos hdigit]
  simp only [htext, readRegister, digitValue_digitChar hdigit, if_pos h, BitVec.ofNat_toNat, BitVec.setWidth_eq]

/-- No byte in decimal looks like a hexadecimal or a binary number: `x` and `b` are no digits. -/
theorem readImm_decimal (v : Byte) : readImm (decimal v) = some v := by
  unfold readImm
  split
  · rename_i htext
    exact absurd rfl (forall_mem_decimal (p := (· ≠ 'x')) (by decide) v 'x' (by simp [htext]))
  · rename_i htext
    exact absurd rfl (forall_mem_decimal (p := (· ≠ 'b')) (by decide) v 'b' (by simp [htext]))
  · exact readByteIn_decimal v

theorem instrOfParts_of_f1r {m : Mnemonic} (hm : m.format = .f1r) {o : Byte} (h : o.toNat < 8) :
    instrOfParts m [regText o] = some (m.withOperands o 0) := by
  simp only [instrOfParts, hm, readRegister_regText h]

theorem instrOfParts_of_f2rr {m : Mnemonic} (hm : m.format = .f2rr) {o1 o2 : Byte}
    (h : o1.toNat < 8 ∧ o2.toNat < 8) :
    instrOfParts m [regText o1, regText o2] = some (m.withOperands o1 o2) := by
  simp only [instrOfParts, hm, readRegister_regText h.1, readRegister_regText h.2]

theorem instrOfParts_ldi {reg : Byte} (h : reg.toNat < 8) (imm : Byte) :
    instrOfParts .ldi [regText reg, decimal imm] = some (.ldi reg imm) := by
  simp only [instrOfParts, Mnemonic.format, readRegister_regText h, readImm_decimal]
  rfl

/-- The operand texts of a well-formed instruction are read back in its name's format. -/
theorem instrOfParts_operandTexts {i : Instr} (hwf : i.wellFormed = true) :
    instrOfParts i.mnemonic (operandTexts i) = some i := by
  cases i <;>
    simp only [Instr.wellFormed, Instr.regOperands, regOperandOk, List.all_cons, List.all_nil, Bool.and_true,
      decide_eq_true_eq, Bool.and_eq_true] at hwf
  case hlt | ret => rfl
  case ldi reg imm => exact instrOfParts_ldi hwf imm
  case prn | push | pop | call | jmp | jeq | jne | jgt | jlt | jle | jge => exact instrOfParts_of_f1r rfl hwf
  case add | mul | cmp => exact instrOfParts_of_f2rr rfl hwf

/-- Settles O48: the text is cut into the name and the operand texts it was made of, and those are read back. -/
theorem assemblyTextReadsBack : Obligations.AssemblyTextReadsBack := by
  intro i hwf
  have hparts := instrOfParts_operandTexts hwf
  have hsolid : ∀ w ∈ operandTexts i, Solid w := fun _ => solid_of_mem_operandTexts
  have hcomma : ∀ w ∈ operandTexts i, ∀ c ∈ w, (c == ',') = false := fun _ =>
    forall_mem_operandTexts (by decide) (by decide)
  unfold instrText
  split
  · rename_i hnil
    rw [parseInstr_mnemonicText, ← hnil, hparts]
  · rename_i o os hcons
    rw [hcons] at hsolid hcomma hparts
    rw [List.append_assoc, List.cons_append, parseInstr_mnemonicText_operands _ hsolid hcomma, hparts]

end Sys2Proof.Machine
end
